-- ==== Sys2Proof/Word.lean ====
section
/-! DEFINITION. The word types of the core and their names (spec 00_scope.md rules R4 and R7).

Bit 0 is the least significant bit of a word (R7). All arithmetic on `Word` is `BitVec` arithmetic, that is
modulo 2^32 (41_alu_register.md rule R207). -/

namespace Sys2Proof

/-- A word: an unsigned 32-bit integer (R4, XLEN = 32). -/
abbrev Word := BitVec 32

/-- One byte of the loader's byte stream (20_memory.md rule R64). -/
abbrev Byte := BitVec 8

/-- A general-register id, 0 to 31 (10_state.md rule R23); it only ever comes from a 5-bit field (60_exceptions.md rule R304). -/
abbrev RegId := BitVec 5

/-- The opcode field, bits 31:26, or the function code, bits 5:0 (30_encoding.md rule R91). -/
abbrev Sel6 := BitVec 6

/-- The shift-amount field, bits 10:6 (R91); no instruction uses it (30_encoding.md rule R102). -/
abbrev Shamt := BitVec 5

/-- The immediate field, bits 15:0 (R91). -/
abbrev Imm16 := BitVec 16

/-- The address field, bits 25:0 (R91). -/
abbrev Addr26 := BitVec 26

end Sys2Proof
end

