-- ==== Sys2Proof/Config.lean ====
section
/-! DEFINITION. What is fixed for the machine: DOC's constants (00_scope.md rule R4) and the type of the named
parameters (R5). The parameters' default VALUES stand in Sys2Proof/Decode.lean (`Sys2Proof.params`).

This hardware leaves no value free: "Non-determinism: none" (70_reset_and_hazards.md rule R366), so there is no
opaque constant here (assumption log entry 27). -/

namespace Sys2Proof

/-- The reset value of the program counter, "4096-byte offset into the image" (R4, 70_reset_and_hazards.md rule R342). -/
def Config.pcReset : Word := 0x00001000#32

/-- The canonical halt word, "raw word with opcode field = 0x3F and all other fields 0" (R4). Fetch compares whole words with it. -/
def Config.haltWord : Word := 0xFC000000#32

/-- The opcode of `halt`, the one opcode number DOC gives (30_encoding.md rule R97). -/
def Config.opcHalt : Sel6 := 0x3F#6

/-- ALU_IMM_EXT, how the 16-bit immediate is widened when it is an ALU operand (R5, 30_encoding.md rule R94). -/
inductive AluImmExt where
  /-- `sext_32` for every instruction: the spec's default. -/
  | sign
  /-- `zext_32` as the ALU operand of `andi` and `ori`, `sext_32` everywhere else. -/
  | zeroForLogical
  deriving DecidableEq, Repr

/-- The parameters of 00_scope.md rule R5 that are not the memory size: the sixteen opcode and function-code
numbers DOC does not give, and ALU_IMM_EXT. (MEM_WORDS belongs to the loaded image: `Memory.words`.) -/
structure Params where
  opcRtype : Sel6
  opcJ : Sel6
  opcBeq : Sel6
  opcBne : Sel6
  opcAddi : Sel6
  opcSlti : Sel6
  opcAndi : Sel6
  opcOri : Sel6
  opcLw : Sel6
  opcSw : Sel6
  functAdd : Sel6
  functSub : Sel6
  functAnd : Sel6
  functOr : Sel6
  functNor : Sel6
  functSlt : Sel6
  functJr : Sel6
  aluImmExt : AluImmExt
  deriving DecidableEq, Repr

end Sys2Proof
end

