-- ==== Sys2Proof/Syntax.lean ====
section
/-! DEFINITION. The instructions: one constructor per row of spec/opcode_table.json (17 rows).

The arguments are the instruction word's fields in the order of their bits, most significant first
(30_encoding.md rule R91). A field the instruction ignores (R93) is an argument all the same: Decode extracts every
field of every word (R92), and the load-use check and the forwarding comparison look at the bits of an ignored `rs`
or `rt` (R102), so no bit may be dropped. -/

namespace Sys2Proof

/-- The 17 instructions (00_scope.md rule R2). -/
inductive Instr where
  /-- `add rd, rs, rt` (41_alu_register.md rule R201). -/
  | add (rs rt rd : RegId) (shamt : Shamt)
  /-- `sub rd, rs, rt` (R202). -/
  | sub (rs rt rd : RegId) (shamt : Shamt)
  /-- `and rd, rs, rt` (R203). -/
  | and (rs rt rd : RegId) (shamt : Shamt)
  /-- `or rd, rs, rt` (R204). -/
  | or (rs rt rd : RegId) (shamt : Shamt)
  /-- `nor rd, rs, rt` (R205). -/
  | nor (rs rt rd : RegId) (shamt : Shamt)
  /-- `slt rd, rs, rt` (R206): unsigned. -/
  | slt (rs rt rd : RegId) (shamt : Shamt)
  /-- `jr rs` (43_branch_jump.md rule R245); `rt`, `rd` and `shamt` are ignored bits. -/
  | jr (rs rt rd : RegId) (shamt : Shamt)
  /-- `addi rt, rs, imm` (42_alu_immediate.md rule R222). -/
  | addi (rs rt : RegId) (imm : Imm16)
  /-- `slti rt, rs, imm` (R225): unsigned. -/
  | slti (rs rt : RegId) (imm : Imm16)
  /-- `andi rt, rs, imm` (R223). -/
  | andi (rs rt : RegId) (imm : Imm16)
  /-- `ori rt, rs, imm` (R224). -/
  | ori (rs rt : RegId) (imm : Imm16)
  /-- `beq rs, rt, off` (43_branch_jump.md rule R242). -/
  | beq (rs rt : RegId) (off : Imm16)
  /-- `bne rs, rt, off` (R243). -/
  | bne (rs rt : RegId) (off : Imm16)
  /-- `lw rt, imm(rs)` (44_load_store.md rule R261). -/
  | lw (rs rt : RegId) (imm : Imm16)
  /-- `sw rt, imm(rs)` (R262). -/
  | sw (rs rt : RegId) (imm : Imm16)
  /-- `j target`: the word address `target / 4` (43_branch_jump.md rule R244). -/
  | j (addr : Addr26)
  /-- `halt`: every word with opcode `0x3F` (45_halt_nop.md rules R280, R283); `code` is bits 25:0, 0 in the canonical word. -/
  | halt (code : Addr26)
  deriving DecidableEq, Repr

/-- The row of spec/opcode_table.json an instruction belongs to. -/
def Instr.mnemonic : Instr → String
  | .add .. => "add"
  | .sub .. => "sub"
  | .and .. => "and"
  | .or .. => "or"
  | .nor .. => "nor"
  | .slt .. => "slt"
  | .jr .. => "jr"
  | .addi .. => "addi"
  | .slti .. => "slti"
  | .andi .. => "andi"
  | .ori .. => "ori"
  | .beq .. => "beq"
  | .bne .. => "bne"
  | .lw .. => "lw"
  | .sw .. => "sw"
  | .j .. => "j"
  | .halt .. => "halt"

end Sys2Proof
end

