-- ==== Sys2Proof/WellFormed.lean ====
section
/-! DEFINITION. What is well formed: an assembled instruction, and an admissible assignment of selector numbers.

Every field of `Instr` has its own width, so no term holds a register id above 31 or an immediate too wide for its
field. What is left to check is the assembler's form (30_encoding.md rules R101 and R105): the bits an instruction
ignores are 0 and `halt` is the canonical word. The machine itself runs the other forms as well (R102, R283), and the
statements of this package are made for every term of `Instr`, assembled or not. -/

namespace Sys2Proof

/-- The form an assembler emits (R105: "shamt = 0", "rt = rd = shamt = 0"; R101: "An assembler must emit only the canonical word"). -/
def Instr.wellFormed : Instr → Bool
  | .add _ _ _ shamt => shamt == 0
  | .sub _ _ _ shamt => shamt == 0
  | .and _ _ _ shamt => shamt == 0
  | .or _ _ _ shamt => shamt == 0
  | .nor _ _ _ shamt => shamt == 0
  | .slt _ _ _ shamt => shamt == 0
  | .jr _ rt rd shamt => rt == 0 && rd == 0 && shamt == 0
  | .addi .. => true
  | .slti .. => true
  | .andi .. => true
  | .ori .. => true
  | .beq .. => true
  | .bne .. => true
  | .lw .. => true
  | .sw .. => true
  | .j .. => true
  | .halt code => code == 0

/-- The opcodes of an assignment, `halt`'s included (30_encoding.md rule R97). -/
def Params.opcodes (p : Params) : List Sel6 :=
  [p.opcRtype, p.opcJ, p.opcBeq, p.opcBne, p.opcAddi, p.opcSlti, p.opcAndi, p.opcOri, p.opcLw, p.opcSw, Config.opcHalt]

/-- The function codes of an assignment (R97). -/
def Params.functs (p : Params) : List Sel6 :=
  [p.functAdd, p.functSub, p.functAnd, p.functOr, p.functNor, p.functSlt, p.functJr]

/-- "Any assignment is admissible that keeps the seventeen selectors distinct and keeps OPC_HALT = `0x3F`; the word
`0x00000000` must select no instruction" (R97). -/
abbrev Params.wf (p : Params) : Prop :=
  p.opcodes.Nodup ∧ p.functs.Nodup ∧ (p.opcRtype = 0 ∧ 0 ∉ p.functs ∨ 0 ∉ p.opcodes)

end Sys2Proof
end

