-- ==== Sys2Proof/Decode.lean ====
section
/-! DEFINITION. Decoding and encoding instruction words (30_encoding.md rules R90 to R103), and the default values of the
parameters of 00_scope.md rule R5. -/

namespace Sys2Proof

/-! ## The parameters' default values -/

/-- The spec's defaults: the MIPS I opcode and function-code numbers (R97, decision D1; assumption log entry 3, PRESUMED)
and sign extension for every immediate (R94, decision D4; entry 4, DESIGN CHOICE). They stand in this file, not in
Config.lean, so that a later repair can change a number a test shows wrong. -/
def params : Params where
  opcRtype := 0x00#6
  opcJ := 0x02#6
  opcBeq := 0x04#6
  opcBne := 0x05#6
  opcAddi := 0x08#6
  opcSlti := 0x0A#6
  opcAndi := 0x0C#6
  opcOri := 0x0D#6
  opcLw := 0x23#6
  opcSw := 0x2B#6
  functAdd := 0x20#6
  functSub := 0x22#6
  functAnd := 0x24#6
  functOr := 0x25#6
  functNor := 0x27#6
  functSlt := 0x2A#6
  functJr := 0x08#6
  aluImmExt := .sign

/-! ## The fields of a word (R91) -/

namespace Field

/-- `opcode[31:26]`. -/
def opcode (w : Word) : Sel6 := w.extractLsb' 26 6
/-- `rs[25:21]`. -/
def rs (w : Word) : RegId := w.extractLsb' 21 5
/-- `rt[20:16]`. -/
def rt (w : Word) : RegId := w.extractLsb' 16 5
/-- `rd[15:11]`. -/
def rd (w : Word) : RegId := w.extractLsb' 11 5
/-- `shamt[10:6]`. -/
def shamt (w : Word) : Shamt := w.extractLsb' 6 5
/-- `funct[5:0]`. -/
def funct (w : Word) : Sel6 := w.extractLsb' 0 6
/-- `immediate[15:0]`. -/
def imm (w : Word) : Imm16 := w.extractLsb' 0 16
/-- `address[25:0]`. -/
def addr (w : Word) : Addr26 := w.extractLsb' 0 26

end Field

/-- "`immediate` is `rd ++ shamt ++ funct`" (R91). -/
def immOfFields (rd : RegId) (shamt : Shamt) (funct : Sel6) : Imm16 := rd ++ shamt ++ funct

/-- "`address` is `rs ++ rt ++ immediate`" (R91). -/
def addrOfFields (rs rt : RegId) (imm : Imm16) : Addr26 := rs ++ rt ++ imm

/-! ## The decoder (R99, R103) -/

/-- Why a word is no instruction. Such a word raises nothing when it is executed: it is a no-op (R100). -/
inductive Reject where
  /-- The opcode selects no row of the control table. -/
  | unassignedOpcode (opcode : Sel6)
  /-- The opcode is OPC_RTYPE and the function code selects no row. -/
  | unassignedFunct (funct : Sel6)
  /-- Fewer than four bytes: no whole word (R90; only `decodeBytesWith` answers this). -/
  | shortWord
  deriving DecidableEq, Repr

/-- The R-format part: "R-format rows: mask `0xFC00003F`" (R103), selected by function code only. -/
def decodeR (p : Params) (w : Word) : Except Reject Instr :=
  if Field.funct w = p.functAdd then .ok (.add (Field.rs w) (Field.rt w) (Field.rd w) (Field.shamt w))
  else if Field.funct w = p.functSub then .ok (.sub (Field.rs w) (Field.rt w) (Field.rd w) (Field.shamt w))
  else if Field.funct w = p.functAnd then .ok (.and (Field.rs w) (Field.rt w) (Field.rd w) (Field.shamt w))
  else if Field.funct w = p.functOr then .ok (.or (Field.rs w) (Field.rt w) (Field.rd w) (Field.shamt w))
  else if Field.funct w = p.functNor then .ok (.nor (Field.rs w) (Field.rt w) (Field.rd w) (Field.shamt w))
  else if Field.funct w = p.functSlt then .ok (.slt (Field.rs w) (Field.rt w) (Field.rd w) (Field.shamt w))
  else if Field.funct w = p.functJr then .ok (.jr (Field.rs w) (Field.rt w) (Field.rd w) (Field.shamt w))
  else .error (.unassignedFunct (Field.funct w))

/-- The decoder for an assignment of selector numbers. For an I-format, J-format or `halt` opcode "the function-code bits
play no part" (R99). -/
def decodeWith (p : Params) (w : Word) : Except Reject Instr :=
  if Field.opcode w = p.opcRtype then decodeR p w
  else if Field.opcode w = p.opcAddi then .ok (.addi (Field.rs w) (Field.rt w) (Field.imm w))
  else if Field.opcode w = p.opcSlti then .ok (.slti (Field.rs w) (Field.rt w) (Field.imm w))
  else if Field.opcode w = p.opcAndi then .ok (.andi (Field.rs w) (Field.rt w) (Field.imm w))
  else if Field.opcode w = p.opcOri then .ok (.ori (Field.rs w) (Field.rt w) (Field.imm w))
  else if Field.opcode w = p.opcBeq then .ok (.beq (Field.rs w) (Field.rt w) (Field.imm w))
  else if Field.opcode w = p.opcBne then .ok (.bne (Field.rs w) (Field.rt w) (Field.imm w))
  else if Field.opcode w = p.opcLw then .ok (.lw (Field.rs w) (Field.rt w) (Field.imm w))
  else if Field.opcode w = p.opcSw then .ok (.sw (Field.rs w) (Field.rt w) (Field.imm w))
  else if Field.opcode w = p.opcJ then .ok (.j (Field.addr w))
  else if Field.opcode w = Config.opcHalt then .ok (.halt (Field.addr w))
  else .error (.unassignedOpcode (Field.opcode w))

/-- The decoder of this model. -/
def decode (w : Word) : Except Reject Instr := decodeWith params w

/-! ## Bytes: the loader's order (20_memory.md rule R64) -/

/-- The word of four bytes, the first at the lowest address: "4 bytes per word, low byte first" (R64). -/
def wordOfBytes (b0 b1 b2 b3 : Byte) : Word := b3 ++ b2 ++ b1 ++ b0

/-- The four bytes of a word, lowest address first (R64). -/
def bytesOfWord (w : Word) : List Byte :=
  [w.extractLsb' 0 8, w.extractLsb' 8 8, w.extractLsb' 16 8, w.extractLsb' 24 8]

/-- Decoding from a byte stream: one whole word (R90: "There is one length"), and the rest of the stream. -/
def decodeBytesWith (p : Params) : List Byte → Except Reject (Instr × List Byte)
  | b0 :: b1 :: b2 :: b3 :: rest => (decodeWith p (wordOfBytes b0 b1 b2 b3)).map (·, rest)
  | _ => .error .shortWord

/-- Decoding from a byte stream under the default parameters. -/
def decodeBytes (bytes : List Byte) : Except Reject (Instr × List Byte) := decodeBytesWith params bytes

/-- The word whose low `nbits` bits are those of `w`, every other bit 0. -/
def tableWord (nbits w : Nat) : Word := BitVec.ofNat 32 (w % 2 ^ nbits)

/-- The host's question: the instruction the decoder reads from a row's bits. -/
def decodeTableWord (nbits w : Nat) : Option Instr :=
  match decodeBytes (bytesOfWord (tableWord nbits w)) with
  | .ok (i, _) => some i
  | .error _ => none

/-! ## The encoder (R91, R97) -/

/-- An R-format word. -/
def encodeR (opc : Sel6) (rs rt rd : RegId) (shamt : Shamt) (funct : Sel6) : Word := opc ++ rs ++ rt ++ rd ++ shamt ++ funct

/-- An I-format word. -/
def encodeI (opc : Sel6) (rs rt : RegId) (imm : Imm16) : Word := opc ++ rs ++ rt ++ imm

/-- A J-format word (and `halt`, which has an opcode and 26 more bits). -/
def encodeJ (opc : Sel6) (addr : Addr26) : Word := opc ++ addr

/-- The word of an instruction under an assignment of selector numbers. -/
def encodeWith (p : Params) : Instr → Word
  | .add rs rt rd shamt => encodeR p.opcRtype rs rt rd shamt p.functAdd
  | .sub rs rt rd shamt => encodeR p.opcRtype rs rt rd shamt p.functSub
  | .and rs rt rd shamt => encodeR p.opcRtype rs rt rd shamt p.functAnd
  | .or rs rt rd shamt => encodeR p.opcRtype rs rt rd shamt p.functOr
  | .nor rs rt rd shamt => encodeR p.opcRtype rs rt rd shamt p.functNor
  | .slt rs rt rd shamt => encodeR p.opcRtype rs rt rd shamt p.functSlt
  | .jr rs rt rd shamt => encodeR p.opcRtype rs rt rd shamt p.functJr
  | .addi rs rt imm => encodeI p.opcAddi rs rt imm
  | .slti rs rt imm => encodeI p.opcSlti rs rt imm
  | .andi rs rt imm => encodeI p.opcAndi rs rt imm
  | .ori rs rt imm => encodeI p.opcOri rs rt imm
  | .beq rs rt off => encodeI p.opcBeq rs rt off
  | .bne rs rt off => encodeI p.opcBne rs rt off
  | .lw rs rt imm => encodeI p.opcLw rs rt imm
  | .sw rs rt imm => encodeI p.opcSw rs rt imm
  | .j addr => encodeJ p.opcJ addr
  | .halt code => encodeJ Config.opcHalt code

/-- The encoder of this model. -/
def encode (i : Instr) : Word := encodeWith params i

/-! ## The opcode table (spec/opcode_table.json; R103) -/

/-- A row of the opcode table: a word belongs to the row when its bits under `mask` are `pattern`. -/
structure TableRow where
  mnemonic : String
  mask : Word
  pattern : Word
  deriving DecidableEq, Repr

/-- The 17 rows, in the table's order. -/
def opcodeTable : List TableRow :=
  [⟨"add", 0xFC00003F#32, 0x00000020#32⟩, ⟨"sub", 0xFC00003F#32, 0x00000022#32⟩, ⟨"and", 0xFC00003F#32, 0x00000024#32⟩,
   ⟨"or", 0xFC00003F#32, 0x00000025#32⟩, ⟨"nor", 0xFC00003F#32, 0x00000027#32⟩, ⟨"slt", 0xFC00003F#32, 0x0000002A#32⟩,
   ⟨"jr", 0xFC00003F#32, 0x00000008#32⟩, ⟨"addi", 0xFC000000#32, 0x20000000#32⟩, ⟨"slti", 0xFC000000#32, 0x28000000#32⟩,
   ⟨"andi", 0xFC000000#32, 0x30000000#32⟩, ⟨"ori", 0xFC000000#32, 0x34000000#32⟩, ⟨"beq", 0xFC000000#32, 0x10000000#32⟩,
   ⟨"bne", 0xFC000000#32, 0x14000000#32⟩, ⟨"lw", 0xFC000000#32, 0x8C000000#32⟩, ⟨"sw", 0xFC000000#32, 0xAC000000#32⟩,
   ⟨"j", 0xFC000000#32, 0x08000000#32⟩, ⟨"halt", 0xFC000000#32, 0xFC000000#32⟩]

end Sys2Proof
end

