-- ==== Sys2Proof/Machine/State.lean ====
section
/-! DEFINITION. The machine's state (10_state.md rules R20 to R47), its faults and refusals, and its reset value (R43).

State holds the COMMITTED value of every cell of the core, and the memory. "The pending value, the staged mark and the
enable flag of each cell (rule R20) exist only inside a cycle: at every cycle boundary they are 'nothing staged, enabled'
(rule R21), so the state a step function maps from and to is only the committed values" (R42). The cells with those parts
are modelled where they exist, inside a cycle: Sys2Proof/Machine/Staged.lean. -/

namespace Sys2Proof.Machine

/-! ## Control signals (R39) -/

/-- The twelve control signals carried in ID/EX, EX/MEM and MEM/WB: eleven of one bit and `aluOp` of three (R39, R40).
Every signal defaults to 0 ("all signals otherwise default 0", 30_encoding.md rule R98). -/
structure Controls where
  /-- `reg_write`: the instruction writes a general register. -/
  regWrite : Bool := false
  /-- `reg_dst`: its destination is `rd`, not `rt`. -/
  regDst : Bool := false
  /-- `alu_src`: the second ALU operand is the immediate. -/
  aluSrc : Bool := false
  /-- `mem_to_reg`: the value written is the memory result. -/
  memToReg : Bool := false
  /-- `mem_read`. -/
  memRead : Bool := false
  /-- `mem_write`. -/
  memWrite : Bool := false
  /-- `branch`. -/
  branch : Bool := false
  /-- `branch_ne`: the branch is taken on different values. -/
  branchNe : Bool := false
  /-- `jump`. -/
  jump : Bool := false
  /-- `jump_src`: the jump target is a register. -/
  jumpSrc : Bool := false
  /-- `alu_op`: the ALU operation code, 0 to 5. -/
  aluOp : BitVec 3 := 0
  /-- `halt`. -/
  halt : Bool := false
  deriving DecidableEq, Repr

/-- "A latch whose twelve control signals are all 0 is a *bubble*" (R39). -/
def Controls.zero : Controls := {}

/-! ## The latches (R33 to R38) -/

/-- IF/ID (R35). -/
structure IfId where
  /-- The raw instruction word. -/
  instr : Word
  /-- The byte address `instr` was fetched from. -/
  pc : Word
  /-- 1: a fetched word; 0: a bubble. -/
  valid : Bool
  deriving DecidableEq, Repr

/-- What Decode extracts from a word and derives from it, all but the two register values: the part of ID/EX that
depends on the instruction word alone (R36, R39). -/
structure Slot where
  rs : RegId
  rt : RegId
  rd : RegId
  /-- Carried and never used by any rule (R36). -/
  shamt : Shamt
  /-- The 16-bit immediate, widened to 32 bits (30_encoding.md rule R94). -/
  imm : Word
  addr : Addr26
  opcode : Sel6
  ctl : Controls
  deriving DecidableEq, Repr

/-- ID/EX (R36): "exactly the listed fields plus the twelve control signals; no `funct`, no `pc`" (decision D27). -/
structure IdEx extends Slot where
  /-- `x[rs]` as Decode read it. -/
  rsVal : Word
  /-- `x[rt]` as Decode read it. -/
  rtVal : Word
  deriving DecidableEq, Repr

/-- EX/MEM (R37): "Every field of ID/EX (rule R36), copied unchanged by Execute's bulk forward, plus two values". -/
structure ExMem extends IdEx where
  aluResult : Word
  writeData : Word
  deriving DecidableEq, Repr

/-- MEM/WB (R38): every field of EX/MEM, plus the memory result. -/
structure MemWb extends ExMem where
  memResult : Word
  deriving DecidableEq, Repr

/-- "Any key not yet set reads as 0" (R34): the content of IF/ID at reset and after a flush, a bubble. -/
def IfId.zero : IfId := ⟨0, 0, false⟩
/-- The word-dependent part of an all-zero latch. -/
def Slot.zero : Slot := ⟨0, 0, 0, 0, 0, 0, 0, Controls.zero⟩
/-- An all-zero ID/EX, the stall bubble. -/
def IdEx.zero : IdEx := ⟨Slot.zero, 0, 0⟩
/-- An all-zero EX/MEM. -/
def ExMem.zero : ExMem := ⟨IdEx.zero, 0, 0⟩
/-- An all-zero MEM/WB. -/
def MemWb.zero : MemWb := ⟨ExMem.zero, 0⟩

/-! ## General registers and memory (R23, R41) -/

/-- The 32 general registers; "an array of 32 plain words with write-before-read inside a cycle" (R25). -/
abbrev RegFile := Vector Word 32

/-- The memory: an image of MEM_WORDS words (R41; 20_memory.md rule R67), held as the bytes of the loader's order (R64):
byte `4k` of the address space is bits 7:0 of word `k`. `cells` lists the bytes that are not 0, at strictly rising byte
addresses; a byte inside the image that is not listed is 0 (assumption log entry 6). -/
structure Memory where
  /-- MEM_WORDS, the number of 32-bit words in the loaded image (00_scope.md rule R5). -/
  words : Nat
  cells : List Host.Cell
  deriving DecidableEq, Repr

/-- The canonical form: addresses strictly rising, no byte listed that reads 0 unlisted, no byte outside the image. -/
abbrev Memory.wf (m : Memory) : Prop :=
  m.cells.Pairwise (fun c d => c.1 < d.1) ∧ ∀ c ∈ m.cells, c.2 ≠ 0 ∧ c.1 < 4 * m.words

/-! ## The state -/

/-- The state of the core: "32 general registers, the program counter, four pipeline latches, and the memory" (10_state.md,
opening sentence). There are no flags (R30), no control, status or other registers (R31, R32), no mode (60_exceptions.md
rule R315), and no counter inside the core (R45). -/
structure State where
  /-- The byte address of the word Fetch reads in the next cycle (R27). -/
  pc : Word
  /-- `x[0]` to `x[31]` (R23). -/
  regs : RegFile
  ifid : IfId
  idex : IdEx
  exmem : ExMem
  memwb : MemWb
  mem : Memory
  deriving DecidableEq, Repr

/-- Which access found its address outside the image (60_exceptions.md rule R301). -/
inductive AccessKind where
  /-- Fetch's read at `pc`. -/
  | fetch
  /-- MemoryAccess's read for a `lw`. -/
  | load
  /-- MemoryAccess's write for a `sw`. -/
  | store
  deriving DecidableEq, Repr

/-- The Fatal conditions (R301): "it ends the run with no handler" (00_scope.md rule R12). Both are the spec's own and
safe: the hardware stops there too. The third name of R301, `UnrecognizedRegisterId`, "cannot be raised by any program"
and "A model need not have it" (R304). -/
inductive Fault where
  /-- `OutOfBounds`: raised by Fetch (every cycle's fetch) and by MemoryAccess (`lw`, `sw`) when the word index of the byte
  address is not below MEM_WORDS (20_memory.md rules R61, R62). Safe: the hardware aborts the run. -/
  | outOfBounds (kind : AccessKind) (address : Word)
  /-- `MisalignedJumpRegister`: raised by Decode for a `jr` whose register value is not a multiple of 4 (43_branch_jump.md
  rule R245). Safe: the hardware aborts the run. -/
  | misalignedJumpRegister (value : Word)
  deriving DecidableEq, Repr

/-- Refusals. No instruction of this model is refused. -/
inductive Refusal where
  /-- Raised only by an arm of exec that has no meaning yet; there is none. Safe: the model stops. -/
  | notModelled (mnemonic : String)
  deriving DecidableEq, Repr

/-! ## Reset (R43, 70_reset_and_hazards.md rules R340, R341) -/

/-- The core right after reset: registers 0, `pc = 0x1000`, all four latches zero. The memory is "the loaded image; not
changed by reset of the core" (R43); with no image loaded it has no word (assumption log entry 5): a program comes to run
by `State.boot` (Sys2Proof/Machine/Loader.lean), or by `State.withFetchWord` for one word. -/
def State.reset : State where
  pc := Config.pcReset
  regs := Vector.replicate 32 0
  ifid := IfId.zero
  idex := IdEx.zero
  exmem := ExMem.zero
  memwb := MemWb.zero
  mem := ⟨0, []⟩

end Sys2Proof.Machine
end

