-- ==== Sys2Proof/Machine/Flags.lean ====
section
/-! DEFINITION. Conditions. The hardware has no flags: "There are no status flags, no condition codes and no predicate
registers. No instruction has a side effect on any flag" (10_state.md rule R30). What stands here are the one-bit
conditions the stages compute and consume at once: the unsigned comparison of `slt` and `slti`, the branch decision, the
load-use hazard, the alignment check of `jr`, and the two outputs of Writeback. -/

namespace Sys2Proof.Machine

/-- "1 if op1 < op2 else 0 -- op1, op2 compared as unsigned 32-bit numbers" (40_pipeline_cycle.md rule R154; 41_alu_register.md rule R206). -/
def setLessThan (a b : Word) : Word := if a.toNat < b.toNat then 1 else 0

/-- `taken(c, a, b) = (c.branch_ne = 1 and a != b) or (c.branch_ne = 0 and a = b)` (R144). -/
def branchTaken (c : Controls) (a b : Word) : Bool := (c.branchNe && a != b) || (!c.branchNe && a == b)

/-- `hazard(rs, rt) = (IDEX.mem_read = 1) and (IDEX.rt = rs or IDEX.rt = rt)` (R142, literal as decision D23 says: raw bit
fields, not qualified by use, by `rt != 0` or by `valid`). -/
def hazard (idex : IdEx) (rs rt : RegId) : Bool := idex.ctl.memRead && (idex.rt == rs || idex.rt == rt)

/-- The check `a mod 4 != 0` of `jr` (R146). -/
def misaligned (a : Word) : Bool := a.toNat % 4 != 0

/-- `halted = (MEMWB.halt = 1)` (R162). -/
def State.halted (s : State) : Bool := s.memwb.ctl.halt

/-- The conjunction of R163 over "the eleven columns of DOC's control table" (decision D28: `reg_dst` is not among them). -/
def Controls.isBubble (c : Controls) : Bool :=
  !c.regWrite && !c.aluSrc && !c.memToReg && !c.memRead && !c.memWrite && !c.branch && !c.branchNe && !c.jump &&
    !c.jumpSrc && c.aluOp == 0 && !c.halt

/-- The `isBubble` output, "all read from the committed MEM/WB" (R163). -/
def State.isBubble (s : State) : Bool := s.memwb.ctl.isBubble

end Sys2Proof.Machine
end

