-- ==== Sys2Proof/Machine/Operands.lean ====
section
/-! DEFINITION. Operand forms: immediates, targets, the effective address, and the word-dependent part of ID/EX for each
instruction format (30_encoding.md rules R91 to R96; 44_load_store.md rule R260). -/

namespace Sys2Proof.Machine

/-! ## Immediates and targets -/

/-- `sext_32` (00_scope.md rule R7). -/
def sext32 (v : Imm16) : Word := v.signExtend 32

/-- `zext_32` (R7). -/
def zext32 (v : Imm16) : Word := v.setWidth 32

/-- The immediate of `andi` and `ori` under ALU_IMM_EXT (R94, decision D4). -/
def logicalImm (ext : AluImmExt) (v : Imm16) : Word :=
  match ext with
  | .sign => sext32 v
  | .zeroForLogical => zext32 v

/-- The immediate Decode stages for a word with this opcode (R94): `sext_32` for every instruction but, under
`zero_for_logical`, `andi` and `ori`.

DESIGN CHOICE (assumption log entry 32): under `zero_for_logical` the zero-extended value of `andi` and `ori` is staged into
`IDEX.imm` itself, chosen by the opcode. The spec fixes the ALU operand and leaves open where it is zero-extended: R94,
40_pipeline_cycle.md rule R140 and 42_alu_immediate.md rule R220 stage `sext_32`, decision D4 speaks of a second copy, and R153
takes the operand from `IDEX.imm`. -/
def stagedImm (p : Params) (opcode : Sel6) (v : Imm16) : Word :=
  if opcode = p.opcAndi ∨ opcode = p.opcOri then logicalImm p.aluImmExt v else sext32 v

/-- `(IFID.pc + 4 + 4 * signed(imm)) mod 2^32` (R96, 40_pipeline_cycle.md rule R145). -/
def branchTarget (pc imm : Word) : Word := pc + 4 + 4 * imm

/-- `(4 * address) mod 2^32 = 0b0000 ++ instr[25:0] ++ 0b00` (R95): "The upper four bits of the new program counter are 0". -/
def jumpTarget (addr : Addr26) : Word := (0 : BitVec 4) ++ addr ++ (0 : BitVec 2)

/-- `EA = (S + E) mod 2^32` (R260, 20_memory.md rule R75). -/
def effectiveAddress (base imm : Word) : Word := base + imm

/-! ## The fields Decode extracts (R92), by format

"Decode extracts all fields unconditionally": an I-format word has `rd` and `shamt` bits too, which are part of its
immediate (42_alu_immediate.md rule R226), and a J-format word has `rs`, `rt`, `rd`, `shamt` and immediate bits, which are
part of its address. -/

/-- The slot of an R-format word. -/
def rSlot (p : Params) (funct : Sel6) (rs rt rd : RegId) (shamt : Shamt) (ctl : Controls) : Slot where
  rs := rs
  rt := rt
  rd := rd
  shamt := shamt
  imm := stagedImm p p.opcRtype (immOfFields rd shamt funct)
  addr := addrOfFields rs rt (immOfFields rd shamt funct)
  opcode := p.opcRtype
  ctl := ctl

/-- The slot of an I-format word. -/
def iSlot (p : Params) (opcode : Sel6) (rs rt : RegId) (imm : Imm16) (ctl : Controls) : Slot where
  rs := rs
  rt := rt
  rd := imm.extractLsb' 11 5
  shamt := imm.extractLsb' 6 5
  imm := stagedImm p opcode imm
  addr := addrOfFields rs rt imm
  opcode := opcode
  ctl := ctl

/-- The slot of a J-format word, and of `halt`. -/
def jSlot (p : Params) (opcode : Sel6) (addr : Addr26) (ctl : Controls) : Slot where
  rs := addr.extractLsb' 21 5
  rt := addr.extractLsb' 16 5
  rd := addr.extractLsb' 11 5
  shamt := addr.extractLsb' 6 5
  imm := stagedImm p opcode (addr.extractLsb' 0 16)
  addr := addr
  opcode := opcode
  ctl := ctl

/-- The slot of any word, extracted without choosing a format (R92, R140), with the control signals given. -/
def wordSlot (p : Params) (w : Word) (ctl : Controls) : Slot where
  rs := Field.rs w
  rt := Field.rt w
  rd := Field.rd w
  shamt := Field.shamt w
  imm := stagedImm p (Field.opcode w) (Field.imm w)
  addr := Field.addr w
  opcode := Field.opcode w
  ctl := ctl

end Sys2Proof.Machine
end

