-- ==== Sys2Proof/Machine/Control.lean ====
section
/-! DEFINITION. The control-signal table (30_encoding.md rule R98) and the control function (R99). -/

namespace Sys2Proof.Machine

namespace Row

/-! ## The rows of R98; a signal not named is 0 -/

/-- `add`. -/
def add : Controls := { regDst := true, regWrite := true, aluOp := 0 }
/-- `sub`. -/
def sub : Controls := { regDst := true, regWrite := true, aluOp := 1 }
/-- `and`. -/
def and : Controls := { regDst := true, regWrite := true, aluOp := 2 }
/-- `or`. -/
def or : Controls := { regDst := true, regWrite := true, aluOp := 3 }
/-- `nor`. -/
def nor : Controls := { regDst := true, regWrite := true, aluOp := 4 }
/-- `slt`. -/
def slt : Controls := { regDst := true, regWrite := true, aluOp := 5 }
/-- `jr`; DOC's "-" in the `alu_op` column is 0 (decision D6). -/
def jr : Controls := { jump := true, jumpSrc := true }
/-- `addi`. -/
def addi : Controls := { regWrite := true, aluSrc := true, aluOp := 0 }
/-- `andi`. -/
def andi : Controls := { regWrite := true, aluSrc := true, aluOp := 2 }
/-- `ori`. -/
def ori : Controls := { regWrite := true, aluSrc := true, aluOp := 3 }
/-- `slti`. -/
def slti : Controls := { regWrite := true, aluSrc := true, aluOp := 5 }
/-- `beq`. -/
def beq : Controls := { branch := true, aluOp := 1 }
/-- `bne`. -/
def bne : Controls := { branch := true, branchNe := true, aluOp := 1 }
/-- `j`. -/
def j : Controls := { jump := true }
/-- `lw`. -/
def lw : Controls := { regWrite := true, aluSrc := true, memToReg := true, memRead := true, aluOp := 0 }
/-- `sw`. -/
def sw : Controls := { aluSrc := true, memWrite := true, aluOp := 0 }
/-- `halt`. -/
def halt : Controls := { halt := true }

end Row

/-- The seventeen rows of R98 and the row "anything else". -/
def controlRows : List Controls :=
  [Row.add, Row.sub, Row.and, Row.or, Row.nor, Row.slt, Row.jr, Row.addi, Row.andi, Row.ori, Row.slti, Row.beq, Row.bne,
   Row.j, Row.lw, Row.sw, Row.halt, Controls.zero]

/-- The R-format part of `controlOf`. -/
def controlR (p : Params) (funct : Sel6) : Controls :=
  if funct = p.functAdd then Row.add
  else if funct = p.functSub then Row.sub
  else if funct = p.functAnd then Row.and
  else if funct = p.functOr then Row.or
  else if funct = p.functNor then Row.nor
  else if funct = p.functSlt then Row.slt
  else if funct = p.functJr then Row.jr
  else Controls.zero

/-- `control(valid, opcode, funct)` (R99). It is the spec's own path from a word to its signals, with no `Instr` between;
`Obligations.StepIsTheCycleOfTheRawWord` states that the meanings reached through `decode` and `exec` agree with it. -/
def controlOf (p : Params) (valid : Bool) (opcode funct : Sel6) : Controls :=
  if valid = false then Controls.zero
  else if opcode = p.opcRtype then controlR p funct
  else if opcode = p.opcAddi then Row.addi
  else if opcode = p.opcAndi then Row.andi
  else if opcode = p.opcOri then Row.ori
  else if opcode = p.opcSlti then Row.slti
  else if opcode = p.opcBeq then Row.beq
  else if opcode = p.opcBne then Row.bne
  else if opcode = p.opcJ then Row.j
  else if opcode = p.opcLw then Row.lw
  else if opcode = p.opcSw then Row.sw
  else if opcode = Config.opcHalt then Row.halt
  else Controls.zero

/-- What Decode makes of the content of IF/ID, whatever it is (R92, R99, R140). -/
def rawSlot (p : Params) (f : IfId) : Slot :=
  wordSlot p f.instr (controlOf p f.valid (Field.opcode f.instr) (Field.funct f.instr))

end Sys2Proof.Machine
end

