-- ==== Sys2Proof/Machine/Ops.lean ====
section
/-! DEFINITION. The named operations over memory, registers, forwarding, the Fatal outcome and reset. -/

namespace Sys2Proof.Machine

/-! ## Memory (20_memory.md rules R60 to R62) -/

/-- What an unlisted byte of the image reads as (assumption log entry 6). -/
def unlistedByte : Byte := 0

/-- The byte listed at `a`, else what an unlisted byte reads as. -/
def lookupByte : List Host.Cell → Nat → Byte
  | [], _ => unlistedByte
  | (k, b) :: rest, a => if k = a then b else lookupByte rest a

/-- Put byte `b` at `a`, keeping the canonical form: a byte that reads the same unlisted is not listed. -/
def putByte (a : Nat) (b : Byte) : List Host.Cell → List Host.Cell
  | [] => if b = unlistedByte then [] else [(a, b)]
  | (k, v) :: rest =>
    if a < k then (if b = unlistedByte then (k, v) :: rest else (a, b) :: (k, v) :: rest)
    else if a = k then (if b = unlistedByte then rest else (a, b) :: rest)
    else (k, v) :: putByte a b rest

/-- "the word index `a >> 2` = `a[31:2]`" (R60): the two low address bits are ignored. -/
def wordIndex (a : Word) : Nat := a.toNat / 4

/-- One byte of the memory, by byte address. -/
def Memory.byteAt (m : Memory) (a : Nat) : Byte := lookupByte m.cells a

/-- The word at a word index, its four bytes in the loader's order (R64). -/
def Memory.wordAt (m : Memory) (k : Nat) : Word :=
  wordOfBytes (m.byteAt (4 * k)) (m.byteAt (4 * k + 1)) (m.byteAt (4 * k + 2)) (m.byteAt (4 * k + 3))

/-- The memory with the four bytes of `v` at word index `k`. -/
def Memory.setWord (m : Memory) (k : Nat) (v : Word) : Memory :=
  { m with cells :=
      putByte (4 * k) (v.extractLsb' 0 8) (putByte (4 * k + 1) (v.extractLsb' 8 8)
        (putByte (4 * k + 2) (v.extractLsb' 16 8) (putByte (4 * k + 3) (v.extractLsb' 24 8) m.cells))) }

/-- The bound of R61: "every index that is not in `[0, MEM_WORDS)`" is outside. -/
abbrev Memory.inBounds (m : Memory) (a : Word) : Prop := wordIndex a < m.words

/-- `MemRead(a, 4)` (R61): the word, or nothing where the access is Fatal. -/
def Memory.read (m : Memory) (a : Word) : Option Word :=
  if m.inBounds a then some (m.wordAt (wordIndex a)) else none

/-- `MemWrite(a, 4, v)` (R62): the memory after the store, or nothing where the access is Fatal; "The memory never grows". -/
def Memory.write (m : Memory) (a v : Word) : Option Memory :=
  if m.inBounds a then some (m.setWord (wordIndex a) v) else none

/-! ## General registers (10_state.md rules R23 to R25) -/

/-- `x[r]`. Nothing in the register file forces register 0 to 0: "The mechanism is not inside the register file" (R24). -/
def RegFile.read (x : RegFile) (r : RegId) : Word := x[r.toNat]'r.isLt

/-- `x[r] <- v`, register 0 like any other; `RegFile.commit` is the boundary that drops a write to 0. -/
def RegFile.put (x : RegFile) (r : RegId) (v : Word) : RegFile := x.set r.toNat v r.isLt

/-- A commit at the writeback boundary: "writes to it are silently dropped at the writeback boundary, not inside the file
itself" (R24; 40_pipeline_cycle.md rule R160, `if d != 0 then x[d] <- v`). -/
def RegFile.commit (x : RegFile) (d : RegId) (v : Word) : RegFile := if d = 0 then x else x.put d v

/-! ## Destinations and forwarding (R151, R152, R160) -/

/-- `dest(L) = if L.reg_dst = 1 then L.rd else L.rt` (R151; the same for Writeback, R160). -/
def Slot.dest (l : Slot) : RegId := if l.ctl.regDst then l.rd else l.rt

/-- "it will actually write a register (write-enable set) and its destination is non-zero and matches" (R151). -/
def Slot.supplies (l : Slot) (r : RegId) : Bool := l.ctl.regWrite && l.dest != 0 && l.dest == r

/-- `wbval(MEMWB)` (R152): "it was a load" is tested by `mem_to_reg` (decision D19). -/
def MemWb.value (l : MemWb) : Word := if l.ctl.memToReg then l.memResult else l.aluResult

/-- `fwd(r, raw)` (R151): EX/MEM before MEM/WB before the value read in Decode. -/
def forward (exmem : ExMem) (memwb : MemWb) (r : RegId) (raw : Word) : Word :=
  if exmem.supplies r then exmem.aluResult
  else if memwb.supplies r then memwb.value
  else raw

/-! ## The ALU (R154) -/

/-- `alu(k, op1, op2)`. The codes 6 and 7 are "never produced by the control table"; their result 0 is the spec's filler
(decision D6). -/
def alu (k : BitVec 3) (op1 op2 : Word) : Word :=
  match k.toNat with
  | 0 => op1 + op2
  | 1 => op1 - op2
  | 2 => op1 &&& op2
  | 3 => op1 ||| op2
  | 4 => ~~~(op1 ||| op2)
  | 5 => setLessThan op1 op2
  | _ => 0

/-! ## A Fatal (60_exceptions.md rules R301, R307)

The hardware has no trap mechanism (R300): no saved program counter, no cause, no handler, no return. Taking the one kind
of exception there is, a Fatal, ends the run: the step answers `.fault` with the kind and the value of R301's table. What
stands here is the state it leaves behind, which no step goes on from. -/

/-- The registers after this cycle's Writeback (R160). -/
def State.regsAfterWriteback (s : State) : RegFile :=
  if s.memwb.ctl.regWrite then RegFile.commit s.regs s.memwb.dest s.memwb.value else s.regs

/-- The state a Fatal leaves (R307): `pc` and the latches keep the values they had at the start of the cycle, the memory is
unchanged, and "What phase 1 had already done stays done: the register write of this cycle's Writeback (if the fault is in
Decode or MemoryAccess) and nothing else". It is "for inspection only" (R319). -/
def State.afterFatal (s : State) : Fault → State
  | .outOfBounds .fetch _ => s
  | .outOfBounds .load _ => { s with regs := s.regsAfterWriteback }
  | .outOfBounds .store _ => { s with regs := s.regsAfterWriteback }
  | .misalignedJumpRegister _ => { s with regs := s.regsAfterWriteback }

/-! ## The reset input (70_reset_and_hazards.md rule R340) -/

/-- What reset makes of a core in any state, a halted or a Fatal one among them: every cell and every general register at the
value of 10_state.md rule R43, and the memory as it was: "reset does not touch the memory". -/
def State.resetCore (s : State) : State := { State.reset with mem := s.mem }

end Sys2Proof.Machine
end

