-- ==== Sys2Proof/Machine/Cycle.lean ====
section
/-! DEFINITION. The five stages and the clock cycle as one function of the committed state (40_pipeline_cycle.md rules R120
to R170). The stages' order is that of R120: Fetch, Writeback, Decode, Execute, MemoryAccess; the first Fatal met ends the
cycle (60_exceptions.md rule R305). Sys2Proof/Machine/Staged.lean writes the same cycle with the staging of R9 and R20 in it. -/

namespace Sys2Proof.Machine

/-- What the clock edge commits into `pc`, IF/ID and ID/EX. -/
structure FrontEnd where
  pc : Word
  ifid : IfId
  idex : IdEx
  deriving DecidableEq, Repr

/-- Fetch's staging of `pc` (R130, R131): `pc + 4`, or nothing (so `pc` stays) when the word is the canonical halt word. -/
def fetchPc (pc w : Word) : Word := if w = Config.haltWord then pc else pc + 4

/-- Fetch's staging of IF/ID (R130). -/
def fetchIfId (pc w : Word) : IfId := ⟨w, pc, true⟩

/-- Part 1 of Decode (R140): the fields and signals of the word, and the two register values, "after this cycle's Writeback". -/
def Slot.toIdEx (d : Slot) (x : RegFile) : IdEx := ⟨d, x.read d.rs, x.read d.rt⟩

/-- Decode's part 2 (R141 to R147) on top of Fetch's staging: stall, branch, jump or nothing, in that precedence. `d` is what
Decode made of the word in IF/ID, `x` the registers after this cycle's Writeback, `w` the word Fetch read in this cycle. -/
def resolve (d : Slot) (x : RegFile) (s : State) (w : Word) : Except Fault FrontEnd :=
  if hazard s.idex d.rs d.rt then
    .ok ⟨s.pc, s.ifid, IdEx.zero⟩
  else if d.ctl.branch && branchTaken d.ctl (x.read d.rs) (x.read d.rt) then
    .ok ⟨branchTarget s.ifid.pc d.imm, IfId.zero, d.toIdEx x⟩
  else if d.ctl.jump then
    if d.ctl.jumpSrc then
      if misaligned (x.read d.rs) then .error (.misalignedJumpRegister (x.read d.rs))
      else .ok ⟨x.read d.rs, IfId.zero, d.toIdEx x⟩
    else .ok ⟨jumpTarget d.addr, IfId.zero, d.toIdEx x⟩
  else .ok ⟨fetchPc s.pc w, fetchIfId s.pc w, d.toIdEx x⟩

/-- The first ALU operand (R153): the forwarded or raw `rs` value. -/
def State.op1 (s : State) : Word := forward s.exmem s.memwb s.idex.rs s.idex.rsVal

/-- The forwarded or raw `rt` value, "before the immediate multiplexer" (R153, R155). -/
def State.rtOperand (s : State) : Word := forward s.exmem s.memwb s.idex.rt s.idex.rtVal

/-- The second ALU operand (R153). -/
def State.op2 (s : State) : Word := if s.idex.ctl.aluSrc then s.idex.imm else s.rtOperand

/-- Execute (R150, R154, R155): the bulk forward, the ALU result, and the data to store, "the forwarded or raw `rt` value" (decision D16). -/
def State.execute (s : State) : ExMem := ⟨s.idex, alu s.idex.ctl.aluOp s.op1 s.op2, s.rtOperand⟩

/-- MemoryAccess's read (R158): the new `mem_result`; "When `mem_read = 0`, `MEMWB.mem_result` is not staged", so it keeps its value (10_state.md rule R38). -/
def State.loadResult (s : State) : Except Fault Word :=
  if s.exmem.ctl.memRead then
    match s.mem.read s.exmem.aluResult with
    | some v => .ok v
    | none => .error (.outOfBounds .load s.exmem.aluResult)
  else .ok s.memwb.memResult

/-- MemoryAccess's write (R158): the memory after it. -/
def State.storeResult (s : State) : Except Fault Memory :=
  if s.exmem.ctl.memWrite then
    match s.mem.write s.exmem.aluResult s.exmem.writeData with
    | some m => .ok m
    | none => .error (.outOfBounds .store s.exmem.aluResult)
  else .ok s.mem

/-- One clock cycle (R170) in which Decode makes `d` of the word in IF/ID. -/
def clockCycle (d : Slot) (s : State) : Host.Outcome State Fault Refusal :=
  match s.mem.read s.pc with
  | none => .fault (.outOfBounds .fetch s.pc)
  | some w =>
    match resolve d s.regsAfterWriteback s w with
    | .error f => .fault f
    | .ok front =>
      match s.loadResult with
      | .error f => .fault f
      | .ok v =>
        match s.storeResult with
        | .error f => .fault f
        | .ok m =>
          .next
            { pc := front.pc
              regs := s.regsAfterWriteback
              ifid := front.ifid
              idex := front.idex
              exmem := s.execute
              memwb := ⟨s.exmem, v⟩
              mem := m }

/-- The instruction in Decode: the word in IF/ID when it is no bubble (`valid = 1`) and selects a row (R99). -/
def State.instrInDecodeWith (p : Params) (s : State) : Option Instr :=
  if s.ifid.valid then
    match decodeWith p s.ifid.instr with
    | .ok i => some i
    | .error _ => none
  else none

/-- The instruction in Decode under the default parameters. -/
def State.instrInDecode (s : State) : Option Instr := s.instrInDecodeWith params

end Sys2Proof.Machine
end

