-- ==== Sys2Proof/Machine/AluImmediate.lean ====
section
/-! DEFINITION. The register-immediate ALU instructions `addi`, `slti`, `andi`, `ori` (42_alu_immediate.md).

A meaning is the clock cycle in which the instruction is in Decode (assumption log entry 1): its fields and control signals
are staged into ID/EX (40_pipeline_cycle.md rule R140) and Decode responds to it (R141). The later stages act on what
ID/EX then holds, in the following cycles. Each meaning is written with the named parameters of 00_scope.md rule R5 as an
argument (`exec…With`), and once more with their default values (`exec…`), which is what `exec` calls. Execute computes
`alu(alu_op, S, E)` one cycle later and Writeback performs `x[rt] <- alu_result` three cycles later (R220). -/

namespace Sys2Proof.Machine

/-- `addi` (42_alu_immediate.md rule R222): `x[rt] <- (x[rs] + E) mod 2^32` if `rt != 0`, `alu_op = 0`, `E = sext_32(imm16)`. -/
def execAddiWith (p : Params) (rs rt : RegId) (imm : Imm16) (s : State) : Host.Outcome State Fault Refusal :=
  clockCycle (iSlot p p.opcAddi rs rt imm Row.addi) s

/-- `addi` (42_alu_immediate.md rule R222) under the default parameters (00_scope.md rule R5). -/
def execAddi (rs rt : RegId) (imm : Imm16) (s : State) : Host.Outcome State Fault Refusal :=
  execAddiWith params rs rt imm s

/-- `slti` (42_alu_immediate.md rule R225): `x[rt] <- 1 if x[rs] < E else 0`, unsigned, if `rt != 0`, `alu_op = 5`. -/
def execSltiWith (p : Params) (rs rt : RegId) (imm : Imm16) (s : State) : Host.Outcome State Fault Refusal :=
  clockCycle (iSlot p p.opcSlti rs rt imm Row.slti) s

/-- `slti` (42_alu_immediate.md rule R225) under the default parameters (00_scope.md rule R5). -/
def execSlti (rs rt : RegId) (imm : Imm16) (s : State) : Host.Outcome State Fault Refusal :=
  execSltiWith params rs rt imm s

/-- `andi` (42_alu_immediate.md rule R223): `x[rt] <- x[rs] & E` if `rt != 0`, `alu_op = 2`; `E` follows ALU_IMM_EXT (decision D4). -/
def execAndiWith (p : Params) (rs rt : RegId) (imm : Imm16) (s : State) : Host.Outcome State Fault Refusal :=
  clockCycle (iSlot p p.opcAndi rs rt imm Row.andi) s

/-- `andi` (42_alu_immediate.md rule R223) under the default parameters (00_scope.md rule R5). -/
def execAndi (rs rt : RegId) (imm : Imm16) (s : State) : Host.Outcome State Fault Refusal :=
  execAndiWith params rs rt imm s

/-- `ori` (42_alu_immediate.md rule R224): `x[rt] <- x[rs] | E` if `rt != 0`, `alu_op = 3`; `E` follows ALU_IMM_EXT (decision D4). -/
def execOriWith (p : Params) (rs rt : RegId) (imm : Imm16) (s : State) : Host.Outcome State Fault Refusal :=
  clockCycle (iSlot p p.opcOri rs rt imm Row.ori) s

/-- `ori` (42_alu_immediate.md rule R224) under the default parameters (00_scope.md rule R5). -/
def execOri (rs rt : RegId) (imm : Imm16) (s : State) : Host.Outcome State Fault Refusal :=
  execOriWith params rs rt imm s

end Sys2Proof.Machine
end

