-- ==== Sys2Proof/Machine/AluRegister.lean ====
section
/-! DEFINITION. The register-register ALU instructions `add`, `sub`, `and`, `or`, `nor`, `slt` (41_alu_register.md).

A meaning is the clock cycle in which the instruction is in Decode (assumption log entry 1): its fields and control signals
are staged into ID/EX (40_pipeline_cycle.md rule R140) and Decode responds to it (R141). The later stages act on what
ID/EX then holds, in the following cycles. Each meaning is written with the named parameters of 00_scope.md rule R5 as an
argument (`exec…With`), and once more with their default values (`exec…`), which is what `exec` calls. Execute computes
`alu(alu_op, S, T)` one cycle later and Writeback performs `x[rd] <- alu_result` three cycles later (R200). Reads, writes and
forwarding are the shared operations of Ops.lean and Cycle.lean; `shamt` is ignored. -/

namespace Sys2Proof.Machine

/-- `add` (41_alu_register.md rule R201): `x[rd] <- (x[rs] + x[rt]) mod 2^32` if `rd != 0`, `alu_op = 0`; no overflow trap (decision D5). -/
def execAddWith (p : Params) (rs rt rd : RegId) (shamt : Shamt) (s : State) : Host.Outcome State Fault Refusal :=
  clockCycle (rSlot p p.functAdd rs rt rd shamt Row.add) s

/-- `add` (41_alu_register.md rule R201) under the default parameters (00_scope.md rule R5). -/
def execAdd (rs rt rd : RegId) (shamt : Shamt) (s : State) : Host.Outcome State Fault Refusal :=
  execAddWith params rs rt rd shamt s

/-- `sub` (41_alu_register.md rule R202): `x[rd] <- (x[rs] - x[rt]) mod 2^32` if `rd != 0`, `alu_op = 1`; `rs` is the minuend (decision D5). -/
def execSubWith (p : Params) (rs rt rd : RegId) (shamt : Shamt) (s : State) : Host.Outcome State Fault Refusal :=
  clockCycle (rSlot p p.functSub rs rt rd shamt Row.sub) s

/-- `sub` (41_alu_register.md rule R202) under the default parameters (00_scope.md rule R5). -/
def execSub (rs rt rd : RegId) (shamt : Shamt) (s : State) : Host.Outcome State Fault Refusal :=
  execSubWith params rs rt rd shamt s

/-- `and` (41_alu_register.md rule R203): `x[rd] <- x[rs] & x[rt]` if `rd != 0`, `alu_op = 2`. -/
def execAndWith (p : Params) (rs rt rd : RegId) (shamt : Shamt) (s : State) : Host.Outcome State Fault Refusal :=
  clockCycle (rSlot p p.functAnd rs rt rd shamt Row.and) s

/-- `and` (41_alu_register.md rule R203) under the default parameters (00_scope.md rule R5). -/
def execAnd (rs rt rd : RegId) (shamt : Shamt) (s : State) : Host.Outcome State Fault Refusal :=
  execAndWith params rs rt rd shamt s

/-- `or` (41_alu_register.md rule R204): `x[rd] <- x[rs] | x[rt]` if `rd != 0`, `alu_op = 3`. -/
def execOrWith (p : Params) (rs rt rd : RegId) (shamt : Shamt) (s : State) : Host.Outcome State Fault Refusal :=
  clockCycle (rSlot p p.functOr rs rt rd shamt Row.or) s

/-- `or` (41_alu_register.md rule R204) under the default parameters (00_scope.md rule R5). -/
def execOr (rs rt rd : RegId) (shamt : Shamt) (s : State) : Host.Outcome State Fault Refusal :=
  execOrWith params rs rt rd shamt s

/-- `nor` (41_alu_register.md rule R205): `x[rd] <- ~(x[rs] | x[rt])` within 32 bits if `rd != 0`, `alu_op = 4`. -/
def execNorWith (p : Params) (rs rt rd : RegId) (shamt : Shamt) (s : State) : Host.Outcome State Fault Refusal :=
  clockCycle (rSlot p p.functNor rs rt rd shamt Row.nor) s

/-- `nor` (41_alu_register.md rule R205) under the default parameters (00_scope.md rule R5). -/
def execNor (rs rt rd : RegId) (shamt : Shamt) (s : State) : Host.Outcome State Fault Refusal :=
  execNorWith params rs rt rd shamt s

/-- `slt` (41_alu_register.md rule R206): `x[rd] <- 1 if x[rs] < x[rt] else 0`, unsigned, if `rd != 0`, `alu_op = 5`. -/
def execSltWith (p : Params) (rs rt rd : RegId) (shamt : Shamt) (s : State) : Host.Outcome State Fault Refusal :=
  clockCycle (rSlot p p.functSlt rs rt rd shamt Row.slt) s

/-- `slt` (41_alu_register.md rule R206) under the default parameters (00_scope.md rule R5). -/
def execSlt (rs rt rd : RegId) (shamt : Shamt) (s : State) : Host.Outcome State Fault Refusal :=
  execSltWith params rs rt rd shamt s

end Sys2Proof.Machine
end

