-- ==== Sys2Proof/Machine/BranchJump.lean ====
section
/-! DEFINITION. The control transfers `beq`, `bne`, `j`, `jr` (43_branch_jump.md).

A meaning is the clock cycle in which the instruction is in Decode (assumption log entry 1): its fields and control signals
are staged into ID/EX (40_pipeline_cycle.md rule R140) and Decode responds to it (R141). The later stages act on what
ID/EX then holds, in the following cycles. Each meaning is written with the named parameters of 00_scope.md rule R5 as an
argument (`exec…With`), and once more with their default values (`exec…`), which is what `exec` calls. A transfer's effect, the redirect
of `pc` and the flush of one word, is complete in its Decode cycle; it "travels on through Execute, MemoryAccess and
Writeback doing nothing" (R240). -/

namespace Sys2Proof.Machine

/-- `beq` (43_branch_jump.md rule R242): "if `a = b` then `pc <- (A + 4 + 4*off) mod 2^32` and the next word is flushed", in this
very cycle, on the register-file values as Decode reads them (R241). -/
def execBeqWith (p : Params) (rs rt : RegId) (off : Imm16) (s : State) : Host.Outcome State Fault Refusal :=
  clockCycle (iSlot p p.opcBeq rs rt off Row.beq) s

/-- `beq` (43_branch_jump.md rule R242) under the default parameters (00_scope.md rule R5). -/
def execBeq (rs rt : RegId) (off : Imm16) (s : State) : Host.Outcome State Fault Refusal :=
  execBeqWith params rs rt off s

/-- `bne` (43_branch_jump.md rule R243): as `beq`, taken "if `a != b`". -/
def execBneWith (p : Params) (rs rt : RegId) (off : Imm16) (s : State) : Host.Outcome State Fault Refusal :=
  clockCycle (iSlot p p.opcBne rs rt off Row.bne) s

/-- `bne` (43_branch_jump.md rule R243) under the default parameters (00_scope.md rule R5). -/
def execBne (rs rt : RegId) (off : Imm16) (s : State) : Host.Outcome State Fault Refusal :=
  execBneWith params rs rt off s

/-- `j` (43_branch_jump.md rule R244): "`pc <- (4 * addr) mod 2^32`, always, and the next word is flushed". -/
def execJWith (p : Params) (addr : Addr26) (s : State) : Host.Outcome State Fault Refusal :=
  clockCycle (jSlot p p.opcJ addr Row.j) s

/-- `j` (43_branch_jump.md rule R244) under the default parameters (00_scope.md rule R5). -/
def execJ (addr : Addr26) (s : State) : Host.Outcome State Fault Refusal :=
  execJWith params addr s

/-- `jr` (43_branch_jump.md rule R245): "if `a mod 4 != 0` then `raise Fatal(MisalignedJumpRegister, a)`; else `pc <- a` and the
next word is flushed"; the register value is the byte address (decision D17). -/
def execJrWith (p : Params) (rs rt rd : RegId) (shamt : Shamt) (s : State) : Host.Outcome State Fault Refusal :=
  clockCycle (rSlot p p.functJr rs rt rd shamt Row.jr) s

/-- `jr` (43_branch_jump.md rule R245) under the default parameters (00_scope.md rule R5). -/
def execJr (rs rt rd : RegId) (shamt : Shamt) (s : State) : Host.Outcome State Fault Refusal :=
  execJrWith params rs rt rd shamt s

end Sys2Proof.Machine
end

