-- ==== Sys2Proof/Machine/HaltNop.lean ====
section
/-! DEFINITION. `halt`, and the words that are no instruction (45_halt_nop.md).

A meaning is the clock cycle in which the instruction is in Decode (assumption log entry 1): its fields and control signals
are staged into ID/EX (40_pipeline_cycle.md rule R140) and Decode responds to it (R141). The later stages act on what
ID/EX then holds, in the following cycles. Each meaning is written with the named parameters of 00_scope.md rule R5 as an
argument (`exec…With`), and once more with their default values (`exec…`), which is what `exec` calls. -/

namespace Sys2Proof.Machine

/-- `halt` (45_halt_nop.md rules R280, R281, R283): `halt = 1`, all other signals 0. It reaches MEM/WB two cycles later, and
`halted` is true from then on; the freeze of `pc` on the canonical word is Fetch's (40_pipeline_cycle.md rule R131). -/
def execHaltWith (p : Params) (code : Addr26) (s : State) : Host.Outcome State Fault Refusal :=
  clockCycle (jSlot p Config.opcHalt code Row.halt) s

/-- `halt` (45_halt_nop.md rule R280) under the default parameters (00_scope.md rule R5). -/
def execHalt (code : Addr26) (s : State) : Host.Outcome State Fault Refusal :=
  execHaltWith params code s

/-- The cycle in which the word in Decode is no instruction: a bubble (`valid = 0`), `nop` or another unassigned encoding
(30_encoding.md rules R99, R100; 45_halt_nop.md rule R286). Its fields are extracted as those of any word, and all its control
signals are 0. -/
def execNoInstrWith (p : Params) (s : State) : Host.Outcome State Fault Refusal :=
  clockCycle (wordSlot p s.ifid.instr Controls.zero) s

/-- The same cycle under the default parameters. -/
def execNoInstr (s : State) : Host.Outcome State Fault Refusal :=
  execNoInstrWith params s

end Sys2Proof.Machine
end

