-- ==== Sys2Proof/Machine/LoadStore.lean ====
section
/-! DEFINITION. The load `lw` and the store `sw` (44_load_store.md).

A meaning is the clock cycle in which the instruction is in Decode (assumption log entry 1): its fields and control signals
are staged into ID/EX (40_pipeline_cycle.md rule R140) and Decode responds to it (R141). The later stages act on what
ID/EX then holds, in the following cycles. Each meaning is written with the named parameters of 00_scope.md rule R5 as an
argument (`exec…With`), and once more with their default values (`exec…`), which is what `exec` calls. Execute computes the effective address
`EA = (S + E) mod 2^32` one cycle later (R260). -/

namespace Sys2Proof.Machine

/-- `lw` (44_load_store.md rule R261): `x[rt] <- Mem[EA[31:2]]` if `rt != 0`; the read is in the cycle after next (MemoryAccess),
and is Fatal there when `EA` is outside the image. -/
def execLwWith (p : Params) (rs rt : RegId) (imm : Imm16) (s : State) : Host.Outcome State Fault Refusal :=
  clockCycle (iSlot p p.opcLw rs rt imm Row.lw) s

/-- `lw` (44_load_store.md rule R261) under the default parameters (00_scope.md rule R5). -/
def execLw (rs rt : RegId) (imm : Imm16) (s : State) : Host.Outcome State Fault Refusal :=
  execLwWith params rs rt imm s

/-- `sw` (44_load_store.md rule R262): `Mem[EA[31:2]] <- T`; the write is in the cycle after next (MemoryAccess), and is Fatal
there, with the memory unchanged, when `EA` is outside the image. -/
def execSwWith (p : Params) (rs rt : RegId) (imm : Imm16) (s : State) : Host.Outcome State Fault Refusal :=
  clockCycle (iSlot p p.opcSw rs rt imm Row.sw) s

/-- `sw` (44_load_store.md rule R262) under the default parameters (00_scope.md rule R5). -/
def execSw (rs rt : RegId) (imm : Imm16) (s : State) : Host.Outcome State Fault Refusal :=
  execSwWith params rs rt imm s

end Sys2Proof.Machine
end

