-- ==== Sys2Proof/Machine/Loader.lean ====
section
/-! DEFINITION. The loader's contract: what the memory is when the core leaves reset (20_memory.md rules R64, R66;
70_reset_and_hazards.md rule R343). -/

namespace Sys2Proof.Machine

/-- The listed bytes of a byte stream whose first byte is at address `a`. -/
def imageCells (a : Nat) : List Byte → List Host.Cell
  | [] => []
  | b :: rest => if b = unlistedByte then imageCells (a + 1) rest else (a, b) :: imageCells (a + 1) rest

/-- The memory of an image file: "a flat sequence of 32-bit little-endian words read from a byte stream (4 bytes per word, low
byte first); no header, no alignment padding; empty/partial trailing bytes are not consumed", "MEM_WORDS = floor(file length
/ 4)" (R64). -/
def loadImage (bytes : List Byte) : Memory :=
  ⟨bytes.length / 4, imageCells 0 (bytes.take (4 * (bytes.length / 4)))⟩

/-- The core with an image placed in its memory and everything else as it was; "the only way to run again is reset with a
(re)loaded image" (70_reset_and_hazards.md rule R340). -/
def State.load (s : State) (bytes : List Byte) : State := { s with mem := loadImage bytes }

/-- The state in which a program begins: the core after reset, with an image loaded ("reset the core; Mem <- image",
60_exceptions.md rule R318). The next step is cycle 1, whose fetch reads the word at `0x1000` (R342). -/
def State.boot (bytes : List Byte) : State := (State.reset.load bytes).resetCore

/-- The memory with at least `n` words. -/
def Memory.growTo (m : Memory) (n : Nat) : Memory := { m with words := max m.words n }

/-- The state one fetch later: `w` stands at byte address `pc` of the image and has just been fetched from there into IF/ID, so
that the next step decodes it. The image is made long enough for that word and for the fetch of the next step (assumption log
entry 25). -/
def State.placeWord (s : State) (w : Word) : State :=
  { s with
    pc := fetchPc s.pc w
    ifid := fetchIfId s.pc w
    mem := (s.mem.growTo (max (wordIndex s.pc) (wordIndex (fetchPc s.pc w)) + 1)).setWord (wordIndex s.pc) w }

end Sys2Proof.Machine
end

