-- ==== Sys2Proof/Machine/Step.lean ====
section
/-! DEFINITION. One step of the machine: one clock cycle ("There is one agent, the core, and one kind of step, the clock
cycle", 40_pipeline_cycle.md rule R120). -/

namespace Sys2Proof.Machine

/-- One clock cycle: the meaning of the instruction in Decode, or of the word there that is no instruction. -/
def step (s : State) : Host.Outcome State Fault Refusal :=
  match s.instrInDecode with
  | some i => exec i s
  | none => execNoInstr s

/-- The host's placement of one instruction word, so that the very next step runs it. -/
def State.withFetchWord (s : State) (nbits w : Nat) : State := s.placeWord (tableWord nbits w)

end Sys2Proof.Machine
end

