-- ==== Sys2Proof/Machine/Driver.lean ====
section
/-! DEFINITION. The environment's side: the driver's loop and counters (60_exceptions.md rule R318) and what the host may read
after the run (R319). The driver is outside the core (00_scope.md rule R3 (b)); it is written down because it defines the end of
a run: `halted` is "sampled between cycles, before each step" (decision D13). The core's ports are in Machine/Ports.lean. -/

namespace Sys2Proof.Machine

/-- The driver's state: the core and "Two counters [that] exist *outside* the core" (R316). -/
structure Driver where
  core : State
  /-- Executed cycles. -/
  cycles : Nat
  /-- Cycles in which the committed MEM/WB was no bubble (decision D14). -/
  retired : Nat
  deriving DecidableEq, Repr

/-- How the driver's loop stands after a number of cycles. -/
inductive RunEnd where
  /-- The run ended normally: `halted` was true. -/
  | halted (d : Driver)
  /-- "a Fatal ends run() abnormally" (R318). `d` is the driver as it was BEFORE the fatal cycle, its counters with it. DESIGN
  CHOICE (assumption log entry 30): the spec gives no counters after an abnormal end, where nothing is reported. -/
  | fatal (d : Driver) (f : Fault)
  /-- A refusal of the model; never answered (Refusal has no instruction to name). -/
  | refused (d : Driver) (r : Refusal)
  /-- Still running: "Cancellation/timeout: none" (43_branch_jump.md rule R250), so the loop here runs under fuel. -/
  | running (d : Driver)
  deriving DecidableEq, Repr

/-- A run's beginning (R318): counters 0. -/
def Driver.start (s : State) : Driver := ⟨s, 0, 0⟩

/-- The loop of R318 around a cycle function, at most `n` cycles of it.

A cycle that ends in Fatal changes neither counter here (DESIGN CHOICE, assumption log entry 30). The spec leaves the point open:
R318's pseudocode adds to `retired` before the step that turns out Fatal, R303 says that the instruction in MEM/WB at a fetch's
Fatal is "not retired", and no rule gives the counters after an abnormal end. -/
def Driver.runWith (cycle : State → Host.Outcome State Fault Refusal) : Nat → Driver → RunEnd
  | 0, d => if d.core.halted then .halted d else .running d
  | n + 1, d =>
    if d.core.halted then .halted d
    else
      match cycle d.core with
      | .next t => Driver.runWith cycle n ⟨t, d.cycles + 1, if d.core.isBubble then d.retired else d.retired + 1⟩
      | .fault f => .fatal d f
      | .refused r => .refused d r

/-- The loop of R318 around the step; `Driver.runWith (stepWith p)` is the loop under other parameters. What it answers for a
cycle that ends in Fatal is the choice named at `Driver.runWith` (assumption log entry 30). -/
def Driver.run (n : Nat) (d : Driver) : RunEnd := Driver.runWith step n d

/-- `cycles / retired`, as the pair; with nothing retired it "is a division by zero in the driver" (R318), and there is no CPI. -/
def Driver.cpi (d : Driver) : Option (Nat × Nat) := if d.retired = 0 then none else some (d.cycles, d.retired)

/-! ## What the host reads after the run (R319, 70_reset_and_hazards.md rule R365) -/

/-- "for the host after the run, a read path to the 32 general registers" (R365): open once the run has ended by `halted`. -/
def RunEnd.readRegister (e : RunEnd) (r : RegId) : Option Word :=
  match e with
  | .halted d => some (RegFile.read d.core.regs r)
  | .fatal _ _ => none
  | .refused _ _ => none
  | .running _ => none

/-- "reading the memory after the run", which the spec allows (R319): the word at a word index of the image. -/
def RunEnd.readMemory (e : RunEnd) (k : Nat) : Option Word :=
  match e with
  | .halted d => if k < d.core.mem.words then some (d.core.mem.wordAt k) else none
  | .fatal _ _ => none
  | .refused _ _ => none
  | .running _ => none

end Sys2Proof.Machine
end

