-- ==== Sys2Proof/Machine/Parametric.lean ====
section
/-! DEFINITION. The machine with its named parameters as an argument (00_scope.md rule R5: "each a named parameter the model
takes as an argument, with the default this spec uses"). The numbers are configuration, not state (10_state.md rule R45), so they
are an argument of the step and no field of State. `exec` (Dispatch.lean) and `step` (Step.lean), whose types the host fixes, are
these functions at the default `params`; `Obligations.StepIsTheCycleOfTheRawWord` says so. MEM_WORDS is the memory's own
`Memory.words`. -/

namespace Sys2Proof.Machine

/-- The clock cycle in which instruction `i` is in Decode, under the parameters `p`. -/
def execWith (p : Params) (i : Instr) (s : State) : Host.Outcome State Fault Refusal :=
  match i with
  | .add rs rt rd shamt => execAddWith p rs rt rd shamt s
  | .sub rs rt rd shamt => execSubWith p rs rt rd shamt s
  | .and rs rt rd shamt => execAndWith p rs rt rd shamt s
  | .or rs rt rd shamt => execOrWith p rs rt rd shamt s
  | .nor rs rt rd shamt => execNorWith p rs rt rd shamt s
  | .slt rs rt rd shamt => execSltWith p rs rt rd shamt s
  | .jr rs rt rd shamt => execJrWith p rs rt rd shamt s
  | .addi rs rt imm => execAddiWith p rs rt imm s
  | .slti rs rt imm => execSltiWith p rs rt imm s
  | .andi rs rt imm => execAndiWith p rs rt imm s
  | .ori rs rt imm => execOriWith p rs rt imm s
  | .beq rs rt off => execBeqWith p rs rt off s
  | .bne rs rt off => execBneWith p rs rt off s
  | .lw rs rt imm => execLwWith p rs rt imm s
  | .sw rs rt imm => execSwWith p rs rt imm s
  | .j addr => execJWith p addr s
  | .halt code => execHaltWith p code s

/-- One clock cycle under the parameters `p`: the meaning of the instruction in Decode, or of the word there that is none. -/
def stepWith (p : Params) (s : State) : Host.Outcome State Fault Refusal :=
  match s.instrInDecodeWith p with
  | some i => execWith p i s
  | none => execNoInstrWith p s

end Sys2Proof.Machine
end

