-- ==== Sys2Proof/Machine/Ports.lean ====
section
/-! DEFINITION. The core behind its ports (70_reset_and_hazards.md rule R365, decision D10; assumption log entry 14): the outputs
as functions of the committed state, the inputs as one record per clock cycle, the cycle of the core on its inputs, and the
memory on the other side of the ports. The clock input `clk` is the step itself: one application of `portCycle` is one period.

"No rule depends on the port list": `step` reads the memory inside State. `Obligations.PortsCarryTheCycle` states that the core on
its inputs makes the same cycle when the memory answers them. -/

namespace Sys2Proof.Machine

/-- The core's outputs in a cycle (R365). -/
structure Ports where
  fetchAddress : Word
  dataAddress : Word
  dataWrite : Word
  memRead : Bool
  memWrite : Bool
  halted : Bool
  isBubble : Bool
  deriving DecidableEq, Repr

/-- The outputs as functions of the committed state.

Two points of it are choices, because R365 lists the outputs and says no more. DESIGN CHOICE (assumption log entry 33):
`dataAddress` and `dataWrite` are `EXMEM.alu_result` and `EXMEM.write_data` in every cycle, also where `mem_read` and `mem_write`
are 0. DESIGN CHOICE (assumption log entry 34): there is no `reset` among the arguments, so in the cycle in which reset is first
asserted the outputs still show the state before it; `portCycle` gives the memory's side no effect in that cycle. -/
def State.ports (s : State) : Ports where
  fetchAddress := s.pc
  dataAddress := s.exmem.aluResult
  dataWrite := s.exmem.writeData
  memRead := s.exmem.ctl.memRead
  memWrite := s.exmem.ctl.memWrite
  halted := s.halted
  isBubble := s.isBubble

/-- The core's inputs in a cycle (R365). -/
structure Inputs where
  reset : Bool
  fetchData : Word
  dataRead : Word
  /-- "out-of-bounds indication in (for the fetch ...)". -/
  fetchOutOfBounds : Bool
  /-- "(... and for the data access)". -/
  dataOutOfBounds : Bool
  deriving DecidableEq, Repr

/-- `i` is an answer of the memory `m` to the outputs `o`: the indications say what is outside the image (20_memory.md rules R61,
R62), and a read inside it carries the word there. What a data input carries that no rule reads is left open. -/
structure Inputs.Answers (i : Inputs) (m : Memory) (o : Ports) : Prop where
  fetchOutOfBounds : i.fetchOutOfBounds = true ↔ m.read o.fetchAddress = none
  fetchData : m.inBounds o.fetchAddress → m.read o.fetchAddress = some i.fetchData
  dataOutOfBounds : o.memRead = true ∨ o.memWrite = true → (i.dataOutOfBounds = true ↔ m.read o.dataAddress = none)
  dataRead : o.memRead = true → m.inBounds o.dataAddress → m.read o.dataAddress = some i.dataRead

/-- The memory's side of a cycle: the write that the outputs ask for (20_memory.md rule R62). -/
def Memory.accept (m : Memory) (o : Ports) : Memory :=
  if o.memWrite then m.setWord (wordIndex o.dataAddress) o.dataWrite else m

/-- One clock cycle of the core on its input ports, under the parameters `p`. The word fetched, the word loaded and both
out-of-bounds indications come from the inputs, and `s.mem` is read by nothing here; the memory's side of the cycle is
`Memory.accept`. The order of what can end the cycle is that of 60_exceptions.md rule R305. While `reset` is asserted every cell
holds its reset value, so the core reads, writes and raises nothing (R340). -/
def portCycle (p : Params) (i : Inputs) (s : State) : Host.Outcome State Fault Refusal :=
  if i.reset then .next s.resetCore
  else if i.fetchOutOfBounds then .fault (.outOfBounds .fetch s.pc)
  else
    match resolve (rawSlot p s.ifid) s.regsAfterWriteback s i.fetchData with
    | .error f => .fault f
    | .ok front =>
      if s.exmem.ctl.memRead && i.dataOutOfBounds then .fault (.outOfBounds .load s.exmem.aluResult)
      else if s.exmem.ctl.memWrite && i.dataOutOfBounds then .fault (.outOfBounds .store s.exmem.aluResult)
      else
        .next
          { pc := front.pc
            regs := s.regsAfterWriteback
            ifid := front.ifid
            idex := front.idex
            exmem := s.execute
            memwb := ⟨s.exmem, if s.exmem.ctl.memRead then i.dataRead else s.memwb.memResult⟩
            mem := s.mem.accept s.ports }

/-- One clock cycle with the reset input (R340): asserted, the core is at its reset state whatever it was doing; not asserted, the
cycle is the step. -/
def stepUnderReset (reset : Bool) (s : State) : Host.Outcome State Fault Refusal :=
  if reset then .next s.resetCore else step s

end Sys2Proof.Machine
end

