-- ==== Sys2Proof/Machine/Staged.lean ====
section
/-! DEFINITION. The double-buffered cells and the clock cycle written with their staging, rule by rule: the cell of
10_state.md rules R20 to R22, the latches with one cell for each field (R34 to R39), the five stages of 40_pipeline_cycle.md rules
R130 to R160 on cells (phase 1), and the clock edge of R122 (phase 2). R170 is "rules R130 to R160 and R122 put together, with the
staging resolved", and `Obligations.StagedCycleIsTheClockCycle` states that for this file and Cycle.lean. -/

namespace Sys2Proof.Machine

/-! ## The cell (R20, R21) -/

/-- "a *committed* value and an optional *pending* value plus a write-enable flag" (R20). -/
structure Cell (α : Type) where
  committed : α
  /-- The staged value; present exactly when a value was staged since the last edge. -/
  pending : Option α
  /-- The next edge may commit. -/
  enabled : Bool
  deriving DecidableEq, Repr

namespace Cell
variable {α : Type}

/-- A cell at a cycle boundary: "nothing staged, enabled" (R43). -/
def clean (v : α) : Cell α := ⟨v, none, true⟩
/-- Nothing is staged and the cell is enabled, whatever it holds. -/
def isClean (c : Cell α) : Bool := c.pending.isNone && c.enabled
/-- "always returns the committed value, never the pending one" (R20). -/
def read (c : Cell α) : α := c.committed
/-- "stages `v` as pending"; a later staging replaces an earlier one (00_scope.md rule R9). -/
def stage (c : Cell α) (v : α) : Cell α := { c with pending := some v }
/-- `disable(c)`: suppress the next edge (R9). -/
def disable (c : Cell α) : Cell α := { c with enabled := false }
/-- `enable(c)`: "cancels a `disable` issued earlier in the same cycle" (R9). -/
def enable (c : Cell α) : Cell α := { c with enabled := true }
/-- `advance(c)` (R21): the pending value is discarded in every case, and "a disable lasts for exactly one edge". -/
def edge (c : Cell α) : Cell α := clean (if c.enabled then c.pending.getD c.committed else c.committed)

end Cell

/-! ## The latches: "a collection of cells (rule R20), one per field, all clocked together" (R34)

A single field `f` of a latch `L` is staged by `{ L with f := L.f.stage v }` and frozen by `{ L with f := L.f.disable }`. For a
whole latch: `clean` puts every field at a cycle boundary, `read` reads every field, `stage` stages every field (a bulk forward
`L' <- M` is the `stage` of `M`'s committed fields; `L' <- 0` that of zeros), `disable` freezes every field, `edge` clocks every
field, and `isClean` says that every field has nothing staged and is enabled. -/

/-- The cells of the twelve control signals (R39). -/
structure ControlCells where
  regWrite : Cell Bool
  regDst : Cell Bool
  aluSrc : Cell Bool
  memToReg : Cell Bool
  memRead : Cell Bool
  memWrite : Cell Bool
  branch : Cell Bool
  branchNe : Cell Bool
  jump : Cell Bool
  jumpSrc : Cell Bool
  aluOp : Cell (BitVec 3)
  halt : Cell Bool
  deriving DecidableEq, Repr

namespace ControlCells

def clean (v : Controls) : ControlCells :=
  ⟨.clean v.regWrite, .clean v.regDst, .clean v.aluSrc, .clean v.memToReg, .clean v.memRead, .clean v.memWrite,
    .clean v.branch, .clean v.branchNe, .clean v.jump, .clean v.jumpSrc, .clean v.aluOp, .clean v.halt⟩

def read (c : ControlCells) : Controls :=
  ⟨c.regWrite.read, c.regDst.read, c.aluSrc.read, c.memToReg.read, c.memRead.read, c.memWrite.read,
    c.branch.read, c.branchNe.read, c.jump.read, c.jumpSrc.read, c.aluOp.read, c.halt.read⟩

def stage (c : ControlCells) (v : Controls) : ControlCells :=
  ⟨c.regWrite.stage v.regWrite, c.regDst.stage v.regDst, c.aluSrc.stage v.aluSrc, c.memToReg.stage v.memToReg,
    c.memRead.stage v.memRead, c.memWrite.stage v.memWrite, c.branch.stage v.branch, c.branchNe.stage v.branchNe,
    c.jump.stage v.jump, c.jumpSrc.stage v.jumpSrc, c.aluOp.stage v.aluOp, c.halt.stage v.halt⟩

def disable (c : ControlCells) : ControlCells :=
  ⟨c.regWrite.disable, c.regDst.disable, c.aluSrc.disable, c.memToReg.disable, c.memRead.disable, c.memWrite.disable,
    c.branch.disable, c.branchNe.disable, c.jump.disable, c.jumpSrc.disable, c.aluOp.disable, c.halt.disable⟩

def edge (c : ControlCells) : ControlCells :=
  ⟨c.regWrite.edge, c.regDst.edge, c.aluSrc.edge, c.memToReg.edge, c.memRead.edge, c.memWrite.edge,
    c.branch.edge, c.branchNe.edge, c.jump.edge, c.jumpSrc.edge, c.aluOp.edge, c.halt.edge⟩

def isClean (c : ControlCells) : Bool :=
  c.regWrite.isClean && c.regDst.isClean && c.aluSrc.isClean && c.memToReg.isClean && c.memRead.isClean &&
    c.memWrite.isClean && c.branch.isClean && c.branchNe.isClean && c.jump.isClean && c.jumpSrc.isClean &&
    c.aluOp.isClean && c.halt.isClean

end ControlCells

/-- The cells of IF/ID (R35). -/
structure IfIdCells where
  instr : Cell Word
  pc : Cell Word
  valid : Cell Bool
  deriving DecidableEq, Repr

namespace IfIdCells

def clean (v : IfId) : IfIdCells := ⟨.clean v.instr, .clean v.pc, .clean v.valid⟩
def read (c : IfIdCells) : IfId := ⟨c.instr.read, c.pc.read, c.valid.read⟩
def stage (c : IfIdCells) (v : IfId) : IfIdCells := ⟨c.instr.stage v.instr, c.pc.stage v.pc, c.valid.stage v.valid⟩
def disable (c : IfIdCells) : IfIdCells := ⟨c.instr.disable, c.pc.disable, c.valid.disable⟩
def edge (c : IfIdCells) : IfIdCells := ⟨c.instr.edge, c.pc.edge, c.valid.edge⟩
def isClean (c : IfIdCells) : Bool := c.instr.isClean && c.pc.isClean && c.valid.isClean

end IfIdCells

/-- The cells of ID/EX (R36). -/
structure IdExCells where
  rs : Cell RegId
  rt : Cell RegId
  rd : Cell RegId
  shamt : Cell Shamt
  imm : Cell Word
  addr : Cell Addr26
  opcode : Cell Sel6
  ctl : ControlCells
  rsVal : Cell Word
  rtVal : Cell Word
  deriving DecidableEq, Repr

namespace IdExCells

def clean (v : IdEx) : IdExCells :=
  ⟨.clean v.rs, .clean v.rt, .clean v.rd, .clean v.shamt, .clean v.imm, .clean v.addr, .clean v.opcode, .clean v.ctl,
    .clean v.rsVal, .clean v.rtVal⟩

def read (c : IdExCells) : IdEx :=
  ⟨⟨c.rs.read, c.rt.read, c.rd.read, c.shamt.read, c.imm.read, c.addr.read, c.opcode.read, c.ctl.read⟩,
    c.rsVal.read, c.rtVal.read⟩

def stage (c : IdExCells) (v : IdEx) : IdExCells :=
  ⟨c.rs.stage v.rs, c.rt.stage v.rt, c.rd.stage v.rd, c.shamt.stage v.shamt, c.imm.stage v.imm, c.addr.stage v.addr,
    c.opcode.stage v.opcode, c.ctl.stage v.ctl, c.rsVal.stage v.rsVal, c.rtVal.stage v.rtVal⟩

def disable (c : IdExCells) : IdExCells :=
  ⟨c.rs.disable, c.rt.disable, c.rd.disable, c.shamt.disable, c.imm.disable, c.addr.disable, c.opcode.disable,
    c.ctl.disable, c.rsVal.disable, c.rtVal.disable⟩

def edge (c : IdExCells) : IdExCells :=
  ⟨c.rs.edge, c.rt.edge, c.rd.edge, c.shamt.edge, c.imm.edge, c.addr.edge, c.opcode.edge, c.ctl.edge, c.rsVal.edge,
    c.rtVal.edge⟩

def isClean (c : IdExCells) : Bool :=
  c.rs.isClean && c.rt.isClean && c.rd.isClean && c.shamt.isClean && c.imm.isClean && c.addr.isClean &&
    c.opcode.isClean && c.ctl.isClean && c.rsVal.isClean && c.rtVal.isClean

end IdExCells

/-- The cells of EX/MEM (R37): those of ID/EX's fields and two more. -/
structure ExMemCells extends IdExCells where
  aluResult : Cell Word
  writeData : Cell Word
  deriving DecidableEq, Repr

namespace ExMemCells

def clean (v : ExMem) : ExMemCells := ⟨.clean v.toIdEx, .clean v.aluResult, .clean v.writeData⟩
def read (c : ExMemCells) : ExMem := ⟨c.toIdExCells.read, c.aluResult.read, c.writeData.read⟩
def stage (c : ExMemCells) (v : ExMem) : ExMemCells :=
  ⟨c.toIdExCells.stage v.toIdEx, c.aluResult.stage v.aluResult, c.writeData.stage v.writeData⟩
def disable (c : ExMemCells) : ExMemCells := ⟨c.toIdExCells.disable, c.aluResult.disable, c.writeData.disable⟩
def edge (c : ExMemCells) : ExMemCells := ⟨c.toIdExCells.edge, c.aluResult.edge, c.writeData.edge⟩
def isClean (c : ExMemCells) : Bool := c.toIdExCells.isClean && c.aluResult.isClean && c.writeData.isClean
/-- `EXMEM' <- IDEX` (R9, R150): "for every field `f` that `M` has"; the two other fields are not staged. -/
def forward (c : ExMemCells) (m : IdExCells) : ExMemCells := { c with toIdExCells := c.toIdExCells.stage m.read }

end ExMemCells

/-- The cells of MEM/WB (R38): those of EX/MEM's fields and one more. -/
structure MemWbCells extends ExMemCells where
  memResult : Cell Word
  deriving DecidableEq, Repr

namespace MemWbCells

def clean (v : MemWb) : MemWbCells := ⟨.clean v.toExMem, .clean v.memResult⟩
def read (c : MemWbCells) : MemWb := ⟨c.toExMemCells.read, c.memResult.read⟩
def stage (c : MemWbCells) (v : MemWb) : MemWbCells := ⟨c.toExMemCells.stage v.toExMem, c.memResult.stage v.memResult⟩
def disable (c : MemWbCells) : MemWbCells := ⟨c.toExMemCells.disable, c.memResult.disable⟩
def edge (c : MemWbCells) : MemWbCells := ⟨c.toExMemCells.edge, c.memResult.edge⟩
def isClean (c : MemWbCells) : Bool := c.toExMemCells.isClean && c.memResult.isClean
/-- `MEMWB' <- EXMEM` (R9, R158): `mem_result` is not staged by it (R38). -/
def forward (c : MemWbCells) (m : ExMemCells) : MemWbCells := { c with toExMemCells := c.toExMemCells.stage m.read }

end MemWbCells

/-! ## The core inside a cycle -/

/-- The core's cells, its general registers and the memory; the last two are not double-buffered (R25, R41). -/
structure Clocked where
  pc : Cell Word
  ifid : IfIdCells
  idex : IdExCells
  exmem : ExMemCells
  memwb : MemWbCells
  regs : RegFile
  mem : Memory
  deriving DecidableEq, Repr

namespace Clocked

/-- The beginning of a cycle: the committed values, nothing staged, everything enabled (R42). -/
def start (s : State) : Clocked where
  pc := .clean s.pc
  ifid := .clean s.ifid
  idex := .clean s.idex
  exmem := .clean s.exmem
  memwb := .clean s.memwb
  regs := s.regs
  mem := s.mem

/-- The committed values, with the registers and the memory as they are. -/
def committed (c : Clocked) : State where
  pc := c.pc.read
  regs := c.regs
  ifid := c.ifid.read
  idex := c.idex.read
  exmem := c.exmem.read
  memwb := c.memwb.read
  mem := c.mem

/-- "nothing staged, everything enabled" (70_reset_and_hazards.md rule R341), in every cell of the core. -/
def isClean (c : Clocked) : Bool := c.pc.isClean && c.ifid.isClean && c.idex.isClean && c.exmem.isClean && c.memwb.isClean

/-- The reset input asserted (R340): every cell clean at its reset value, whatever was staged or disabled, and the memory as it is. -/
def reset (c : Clocked) : Clocked := start c.committed.resetCore

/-- A stage either goes on or raises Fatal, and then leaves what was done so far (60_exceptions.md rule R307). -/
abbrev Result := Except (Fault × Clocked) Clocked

/-- Fetch (R130, R131): it stages IF/ID's three fields, and `pc` unless the word is the canonical halt word. -/
def fetch (c : Clocked) : Result :=
  match c.mem.read c.pc.read with
  | none => .error (.outOfBounds .fetch c.pc.read, c)
  | some w =>
    let c := { c with ifid := ⟨c.ifid.instr.stage w, c.ifid.pc.stage c.pc.read, c.ifid.valid.stage true⟩ }
    .ok (if w = Config.haltWord then c else { c with pc := c.pc.stage (c.pc.read + 4) })

/-- Writeback (R160): committed at once. -/
def writeback (c : Clocked) : Clocked :=
  let l := c.memwb.read
  if l.ctl.regWrite then { c with regs := RegFile.commit c.regs l.dest l.value } else c

/-- The stall (R143): `IDEX' <- 0`, `disable(pc)`, `disable(IFID)` ("every field of IF/ID"). -/
def stall (c : Clocked) : Clocked :=
  { c with idex := c.idex.stage IdEx.zero, pc := c.pc.disable, ifid := c.ifid.disable }

/-- A taken transfer (R145, R146): `IFID' <- 0`, the target into `pc`, `enable(pc)`. -/
def redirect (c : Clocked) (target : Word) : Clocked :=
  { c with ifid := c.ifid.stage IfId.zero, pc := (c.pc.stage target).enable }

/-- Part 1 of Decode (R140): each field that the word gives, the two register values and the twelve signals are staged. -/
def decodePart1 (d : Slot) (a b : Word) (c : Clocked) : Clocked :=
  { c with
    idex :=
      { rs := c.idex.rs.stage d.rs
        rt := c.idex.rt.stage d.rt
        rd := c.idex.rd.stage d.rd
        shamt := c.idex.shamt.stage d.shamt
        imm := c.idex.imm.stage d.imm
        addr := c.idex.addr.stage d.addr
        opcode := c.idex.opcode.stage d.opcode
        ctl := c.idex.ctl.stage d.ctl
        rsVal := c.idex.rsVal.stage a
        rtVal := c.idex.rtVal.stage b } }

/-- Decode (R140 to R147) of the word in IF/ID, of which `d` holds the fields and signals. -/
def decode (d : Slot) (c : Clocked) : Result :=
  let a := RegFile.read c.regs d.rs
  let b := RegFile.read c.regs d.rt
  let part1 := c.decodePart1 d a b
  if hazard c.idex.read d.rs d.rt then .ok part1.stall
  else if d.ctl.branch && branchTaken d.ctl a b then .ok (part1.redirect (branchTarget c.ifid.pc.read d.imm))
  else if d.ctl.jump then
    if d.ctl.jumpSrc then
      if misaligned a then .error (.misalignedJumpRegister a, part1) else .ok (part1.redirect a)
    else .ok (part1.redirect (jumpTarget d.addr))
  else .ok part1

/-- Execute (R150 to R155): the bulk forward of ID/EX, then the two computed fields. -/
def execute (c : Clocked) : Clocked :=
  let l := c.idex.read
  let op1 := Machine.forward c.exmem.read c.memwb.read l.rs l.rsVal
  let f2 := Machine.forward c.exmem.read c.memwb.read l.rt l.rtVal
  let op2 := if l.ctl.aluSrc then l.imm else f2
  let carried := c.exmem.forward c.idex
  { c with
    exmem :=
      { carried with
        aluResult := carried.aluResult.stage (alu l.ctl.aluOp op1 op2)
        writeData := carried.writeData.stage f2 } }

/-- MemoryAccess's read (R158), into `MEMWB.mem_result` alone. -/
def load (c : Clocked) : Result :=
  if c.exmem.ctl.memRead.read then
    match c.mem.read c.exmem.aluResult.read with
    | none => .error (.outOfBounds .load c.exmem.aluResult.read, c)
    | some v => .ok { c with memwb := { c.memwb with memResult := c.memwb.memResult.stage v } }
  else .ok c

/-- MemoryAccess's write (R158): "complete when MemoryAccess performs it in phase 1" (20_memory.md rule R62). -/
def store (c : Clocked) : Result :=
  if c.exmem.ctl.memWrite.read then
    match c.mem.write c.exmem.aluResult.read c.exmem.writeData.read with
    | none => .error (.outOfBounds .store c.exmem.aluResult.read, c)
    | some m => .ok { c with mem := m }
  else .ok c

/-- MemoryAccess (R158): the bulk forward of EX/MEM, then the read, then the write. -/
def memoryAccess (c : Clocked) : Result := do
  let c ← ({ c with memwb := c.memwb.forward c.exmem } : Clocked).load
  c.store

/-- Phase 1 (R120): "in this exact order: Fetch, Writeback, Decode, Execute, MemoryAccess". -/
def phase1 (d : Slot) (c : Clocked) : Result := do
  let c ← c.fetch
  let c ← c.writeback.decode d
  c.execute.memoryAccess

/-- Phase 2, the clock edge (R122): every cell at the same instant. -/
def edge (c : Clocked) : Clocked :=
  { c with
    pc := c.pc.edge
    ifid := c.ifid.edge
    idex := c.idex.edge
    exmem := c.exmem.edge
    memwb := c.memwb.edge }

end Clocked

/-- The whole cycle with its staging: the next committed state, or a Fatal with what the cycle had done when it was raised. -/
def stagedCycle (d : Slot) (s : State) : Except (Fault × Clocked) State :=
  ((Clocked.start s).phase1 d).map fun c => c.edge.committed

end Sys2Proof.Machine
end

