-- ==== Sys2Proof/Safety.lean ====
section
/-! DEFINITION. The terms claims are made in: the invariant of the reachable states (10_state.md rule R46), when a cycle
completes, what a word in Decode responds to, and the value program order gives a register. -/

namespace Sys2Proof.Machine

/-! ## The invariant (R46) -/

/-- R46 (a) to (e), and the canonical form of the memory. -/
structure State.Inv (s : State) : Prop where
  /-- (a) `x[0] = 0`. -/
  zeroReg : RegFile.read s.regs 0 = 0
  /-- (b) `pc` is a multiple of 4. -/
  pcAligned : s.pc.toNat % 4 = 0
  /-- (b) so is `IFID.pc`. -/
  ifidPcAligned : s.ifid.pc.toNat % 4 = 0
  /-- (c) "the control signals are either all 0 or exactly one row of the table". -/
  idexRow : s.idex.ctl ∈ controlRows
  exmemRow : s.exmem.ctl ∈ controlRows
  memwbRow : s.memwb.ctl ∈ controlRows
  /-- (d) "if `IFID.valid = 0` then `IDEX.mem_read = 0`". -/
  bubbleAfterNoLoad : s.ifid.valid = false → s.idex.ctl.memRead = false
  /-- (e) "if `EXMEM.mem_read = 1` and `EXMEM.rt != 0` then neither `IDEX.rs` nor `IDEX.rt` equals `EXMEM.rt`". -/
  loadNotNamed : s.exmem.ctl.memRead = true → s.exmem.rt ≠ 0 → s.idex.rs ≠ s.exmem.rt ∧ s.idex.rt ≠ s.exmem.rt
  /-- The memory keeps its canonical form. -/
  memWf : s.mem.wf

/-! ## When a cycle completes -/

/-- Fetch's read is inside the image (20_memory.md rule R61). -/
def State.FetchOk (s : State) : Prop := s.mem.inBounds s.pc

/-- The access of the instruction in MemoryAccess, if it makes one, is inside the image (R61, R62). -/
def State.DataOk (s : State) : Prop :=
  s.exmem.ctl.memRead = true ∨ s.exmem.ctl.memWrite = true → s.mem.inBounds s.exmem.aluResult

/-- A word in Decode with the bits `rs` and `rt` meets a load-use hazard: the condition of 40_pipeline_cycle.md rule R142 written
out, register numbers compared as they are (decision D23, assumption log entry 22), and independent of the function `hazard` that
the cycle computes with. -/
def State.LoadUse (s : State) (rs rt : RegId) : Prop :=
  s.idex.ctl.memRead = true ∧ (s.idex.rt = rs ∨ s.idex.rt = rt)

/-- The word `w` in Decode meets a load-use hazard with the bits it has in the places of `rs` and `rt` (R142). -/
def State.Stalls (s : State) (w : Word) : Prop := s.LoadUse (Field.rs w) (Field.rt w)

/-- `x[r]` as Decode reads it in this cycle: after this cycle's Writeback, and with no younger result (R144, R161). -/
def State.decodeRead (s : State) (r : RegId) : Word := RegFile.read s.regsAfterWriteback r

/-- The word Fetch reads in this cycle, where the read is inside the image. -/
def State.fetched (s : State) : Word := s.mem.wordAt (wordIndex s.pc)

/-- The memory at the end of the cycle: the store of the instruction in MemoryAccess is in it (R158). -/
def State.memAfter (s : State) : Memory :=
  if s.exmem.ctl.memWrite then s.mem.setWord (wordIndex s.exmem.aluResult) s.exmem.writeData else s.mem

/-- `MEMWB.mem_result` at the end of the cycle (R158; kept when there is no load, R38). -/
def State.memResultAfter (s : State) : Word :=
  if s.exmem.ctl.memRead then s.mem.wordAt (wordIndex s.exmem.aluResult) else s.memwb.memResult

/-- The state after a cycle that commits `pc`, `ifid` and `idex` in front, and behind them what Writeback, Execute and
MemoryAccess make of `s` in every cycle, whatever is in Decode (R150, R158, R160). -/
def State.advance (s : State) (pc : Word) (ifid : IfId) (idex : IdEx) : State where
  pc := pc
  regs := s.regsAfterWriteback
  ifid := ifid
  idex := idex
  exmem := s.execute
  memwb := ⟨s.exmem, s.memResultAfter⟩
  mem := s.memAfter

/-- ID/EX at the end of a cycle that decodes the word `w` with the control signals `ctl`: "Decode extracts all fields
unconditionally" (R92, R140). -/
def State.decoded (s : State) (w : Word) (ctl : Controls) : IdEx where
  rs := Field.rs w
  rt := Field.rt w
  rd := Field.rd w
  shamt := Field.shamt w
  imm := stagedImm params (Field.opcode w) (Field.imm w)
  addr := Field.addr w
  opcode := Field.opcode w
  ctl := ctl
  rsVal := s.decodeRead (Field.rs w)
  rtVal := s.decodeRead (Field.rt w)

/-- The state after a cycle that redirects nothing: the fetched word enters IF/ID, and `pc` advances unless that word is the
canonical halt word (R130, R131, R147). -/
def State.sequel (s : State) (idex : IdEx) : State :=
  s.advance (if s.fetched = Config.haltWord then s.pc else s.pc + 4) ⟨s.fetched, s.pc, true⟩ idex

/-! ## Several cycles -/

/-- `n` clock cycles. -/
def State.cycles : Nat → State → Host.Outcome State Fault Refusal
  | 0, s => .next s
  | n + 1, s =>
    match step s with
    | .next t => State.cycles n t
    | .fault f => .fault f
    | .refused r => .refused r

/-- The control signals of MEM/WB at the start of each of at most `n` cycles: the slots that Writeback works on (R174). -/
def State.slots : Nat → State → List Controls
  | 0, _ => []
  | n + 1, s =>
    s.memwb.ctl ::
      match step s with
      | .next t => State.slots n t
      | .fault _ => []
      | .refused _ => []

/-- The instruction in Decode runs alone: every older slot is a bubble and four `nop` words follow (45_halt_nop.md rule R286).
It is how a state looks in which nothing but that instruction has an effect; it restricts neither the instruction's operands
nor any register. -/
structure State.Alone (s : State) : Prop where
  idex : s.idex.ctl = Controls.zero
  exmem : s.exmem.ctl = Controls.zero
  memwb : s.memwb.ctl = Controls.zero
  word0 : s.mem.read s.pc = some 0
  word1 : s.mem.read (s.pc + 4) = some 0
  word2 : s.mem.read (s.pc + 8) = some 0
  word3 : s.mem.read (s.pc + 12) = some 0

/-! ## Program order (41_alu_register.md rule R200; 40_pipeline_cycle.md rule R161) -/

/-- `x[r]` "*as program order defines*" it for the instruction in Decode, "including the results of all older instructions":
the youngest older instruction in flight that writes `r` decides (ID/EX before EX/MEM before MEM/WB), else the register file.
An ALU instruction's result is what Execute computes of it; a load's is the word its MemoryAccess reads: for a load in EX/MEM, in
this cycle, the word now at its address; for a load in ID/EX, in the next cycle, the word at its address after this cycle's store. -/
def State.progVal (s : State) (r : RegId) : Word :=
  if s.idex.supplies r then
    (if s.idex.ctl.memToReg then s.memAfter.wordAt (wordIndex s.execute.aluResult) else s.execute.aluResult)
  else if s.exmem.supplies r then
    (if s.exmem.ctl.memToReg then s.mem.wordAt (wordIndex s.exmem.aluResult) else s.exmem.aluResult)
  else if s.memwb.supplies r then s.memwb.value
  else RegFile.read s.regs r

/-- Every register of `t` reads as in `s`, but `d`, which reads `v` unless `d` is register 0 (10_state.md rule R24). -/
def RegsWritten (s t : State) (d : RegId) (v : Word) : Prop :=
  ∀ r, RegFile.read t.regs r = if r = d ∧ d ≠ 0 then v else RegFile.read s.regs r

/-- Every register reads as before. -/
def RegsKept (s t : State) : Prop := ∀ r, RegFile.read t.regs r = RegFile.read s.regs r

/-- Every byte of the memory reads as before, and the image has the same size. -/
def MemKept (s t : State) : Prop := t.mem.words = s.mem.words ∧ ∀ a, t.mem.byteAt a = s.mem.byteAt a

/-- The word at byte address `ea` (its two low bits ignored, 20_memory.md rule R60) is `v`, and every other byte reads as before. -/
def WordStored (s t : State) (ea v : Word) : Prop :=
  t.mem.words = s.mem.words ∧ t.mem.wordAt (wordIndex ea) = v ∧
    ∀ a, a / 4 ≠ wordIndex ea → t.mem.byteAt a = s.mem.byteAt a

/-- Instruction `i`, alone in the pipeline and decoded in this cycle, completes: three cycles later it has been through
Writeback; `d` holds `v`, no other register and no byte of memory has changed, and `pc` has gone on by four words. -/
def WritesAlone (i : Instr) (s : State) (d : RegId) (v : Word) : Prop :=
  ∃ s₁ s₄, exec i s = .next s₁ ∧ State.cycles 3 s₁ = .next s₄ ∧
    RegsWritten s s₄ d v ∧ MemKept s s₄ ∧ s₄.pc = s.pc + 16

/-- The four cycles of an instruction decoded from `s` complete: Decode, Execute, MemoryAccess, Writeback (R171). What stands in
`s₂` to `s₃` is MemoryAccess's effect for this instruction, and in `s₃` to `s₄` Writeback's. -/
structure Passes (i : Instr) (s s₁ s₂ s₃ s₄ : State) : Prop where
  decode : exec i s = .next s₁
  execute : step s₁ = .next s₂
  memoryAccess : step s₂ = .next s₃
  writeback : step s₃ = .next s₄

/-- Instruction `i`, decoded from `s` in any company: its Writeback writes `v` to `d` and no other register, and its MemoryAccess
leaves the memory alone. -/
def WritesInOrder (i : Instr) (s : State) (d : RegId) (v : Word) : Prop :=
  ∀ s₁ s₂ s₃ s₄, Passes i s s₁ s₂ s₃ s₄ → RegsWritten s₃ s₄ d v ∧ MemKept s₂ s₃

end Sys2Proof.Machine
end

