-- ==== Sys2Proof/Certificates/Slice0/Obligations.lean ====
section
/-! DEFINITION. The statements for the provers. Each docstring names the rule of the spec it formalises, or the decision and
the assumption log entry it rests on. -/

open Sys2Proof
open Sys2Proof.Machine

/-! ## Encoding -/

/-- Decoding the word of an instruction gives the instruction back, with every field at every value, whatever admissible
selector numbers the parameters hold (30_encoding.md rules R91, R97, R99). -/
def Obligations.DecodeInvertsEncode : Prop :=
  ∀ (p : Params) (i : Instr), p.wf → decodeWith p (encodeWith p i) = .ok i

/-- A word that decodes to an instruction is that instruction's word: the decoder drops no bit (R91, R102). -/
def Obligations.EncodeInvertsDecode : Prop :=
  ∀ (p : Params) (w : Word) (i : Instr), decodeWith p w = .ok i → encodeWith p i = w

/-- A word belongs to a row of the opcode table, by the row's mask and pattern, exactly when it decodes to an instruction of that
row (R103; spec/opcode_table.json). The numbers are the defaults of decision D1 (log entry 3). -/
def Obligations.DecoderFollowsTheOpcodeTable : Prop :=
  ∀ (w : Word) (row : TableRow), row ∈ opcodeTable →
    (w &&& row.mask = row.pattern ↔ ∃ i, decode w = .ok i ∧ i.mnemonic = row.mnemonic)

/-- Words of 95_test_vectors.md B1, one at least of each family, decode to the instructions they stand for. All numbers in them but
`halt`'s are the default values of decision D1 (log entry 3, PRESUMED), which 30_encoding.md rule R97 lists as this spec's choice
and not as the source's. -/
def Obligations.DecodesTheWrittenOutWords : Prop :=
  decode 0x00221820#32 = .ok (.add 1 2 3 0) ∧
  decode 0x0022182A#32 = .ok (.slt 1 2 3 0) ∧
  decode 0x00E00008#32 = .ok (.jr 7 0 0 0) ∧
  decode 0x2021FFFF#32 = .ok (.addi 1 1 0xFFFF) ∧
  decode 0x1420FFFB#32 = .ok (.bne 1 0 0xFFFB) ∧
  decode 0x08000408#32 = .ok (.j 0x408) ∧
  decode 0x8C010000#32 = .ok (.lw 0 1 0) ∧
  decode 0xAC62FFFC#32 = .ok (.sw 3 2 0xFFFC) ∧
  decode 0xFC000000#32 = .ok (.halt 0)

/-- The loader's byte order (20_memory.md rule R64): the four bytes of a word, low byte first, decode as the word, and the rest of the
stream is left. -/
def Obligations.BytesDecodeAsTheirWord : Prop :=
  ∀ (w : Word) (rest : List Byte) (i : Instr), decode w = .ok i → decodeBytes (bytesOfWord w ++ rest) = .ok (i, rest)

/-! ## The step and the instruction in Decode -/

/-- The step is `exec` of the instruction in IF/ID, nothing added (the model's dispatch, log entry 1). -/
def Obligations.StepRunsTheDecodedInstruction : Prop :=
  ∀ (s : State) (i : Instr), s.ifid.valid = true → decode s.ifid.instr = .ok i → step s = exec i s

/-- After the host's placement of an instruction's word, the very next step runs that instruction (log entry 25). -/
def Obligations.PlacedWordRunsNext : Prop :=
  ∀ (s : State) (w : Word) (i : Instr), decode w = .ok i →
    step (s.withFetchWord 32 w.toNat) = exec i (s.withFetchWord 32 w.toNat)

/-- Under every admissible assignment of the named parameters (00_scope.md rule R5, R97) the step, through the decoder and the
meanings of the instructions, is the cycle that takes its fields and its control signals straight from the bits of IF/ID by the
control function (R92, R99, R140), and a word encoded with those numbers runs as its instruction; the machine behind the host's
interface is the one with the defaults (decisions D1 and D4, log entries 3 and 4). -/
def Obligations.StepIsTheCycleOfTheRawWord : Prop :=
  (∀ p : Params, p.wf → ∀ s : State,
    stepWith p s = clockCycle (rawSlot p s.ifid) s ∧
    ∀ i : Instr, s.ifid.valid = true → s.ifid.instr = encodeWith p i → stepWith p s = execWith p i s) ∧
  (∀ s : State, step s = stepWith params s) ∧
  ∀ (i : Instr) (s : State), exec i s = execWith params i s

/-- A bubble, `nop` or any other word that selects no row has no effect of its own: the word fetched behind it follows, and ID/EX
gets its fields with all control signals 0 (30_encoding.md rule R100, decision D7, log entry 12; 45_halt_nop.md rule R286). -/
def Obligations.WordsOfNoRowAreNoOps : Prop :=
  ∀ s : State, s.instrInDecode = none → s.FetchOk → s.DataOk → ¬ s.Stalls s.ifid.instr →
    step s = .next (s.sequel (s.decoded s.ifid.instr Controls.zero))

/-- The cycle written with its cells, one for each latch field (R20, R34), and their staging (R130 to R160 and R122) is the cycle as
one function (R170). The clause about a Fatal only compares the two forms of the model: what the staged cycle has done when it
raises one is `State.afterFatal`, the state of 60_exceptions.md rule R307 (decision D15, log entry 17); of the hardware nothing is
claimed there, because R321 (2) wants no claim to read that state. -/
def Obligations.StagedCycleIsTheClockCycle : Prop :=
  ∀ (d : Slot) (s : State),
    match stagedCycle d s with
    | .ok t => clockCycle d s = .next t
    | .error (f, c) => clockCycle d s = .fault f ∧ c.committed = s.afterFatal f

/-- No instruction's Decode cycle is Fatal when its fetch and data access are inside the image and, for a `jr` that is not held off by
a load, its register is a multiple of 4: the cycle then answers a next state, and the stages behind Decode do what they do in every
cycle (R120, R301, R311). An instruction held off by a load is among them: its cycle puts a bubble into ID/EX, and it is decoded
again in the next (`Obligations.StallHoldsTheFrontEndForOneCycle` says what enters ID/EX in each case). -/
def Obligations.EveryInstructionPassesDecode : Prop :=
  ∀ (i : Instr) (s : State), s.FetchOk → s.DataOk →
    (∀ rs rt rd shamt, i = .jr rs rt rd shamt → ¬ s.Stalls (encode i) → (s.decodeRead rs).toNat % 4 = 0) →
    ∃ pc ifid idex, exec i s = .next (s.advance pc ifid idex)

/-- No instruction and no word is refused. -/
def Obligations.NothingIsRefused : Prop :=
  ∀ (s : State) (r : Refusal), (∀ i, exec i s ≠ .refused r) ∧ step s ≠ .refused r

/-! ## The cell (10_state.md rules R20 to R22) -/

/-- The double-buffer law (R22): between two edges any number of stagings leaves the value read unchanged; the edge makes it the
last value staged, or leaves it where nothing was staged. -/
def Obligations.CellReadsCommittedUntilTheEdge : Prop :=
  ∀ (α : Type) (v : α) (staged : List α),
    let c := staged.foldl Cell.stage (Cell.clean v)
    c.read = v ∧ c.edge.read = staged.getLast?.getD v

/-- A disabled edge copies nothing and discards what was staged, and the edge after it commits again (R21, decision D18, log
entry 20). -/
def Obligations.DisableLastsOneEdge : Prop :=
  ∀ (α : Type) (v a b : α),
    let c := ((Cell.clean v).stage a).disable.edge
    c.read = v ∧ c.edge.read = v ∧ (c.stage b).edge.read = b

/-! ## The stages -/

/-- Fetch (R130, with the halt freeze of R131): outside the image the cycle is Fatal; else, unless Decode stalls or redirects in
the same cycle, IF/ID gets the word read and the address it was read from, its marker set (decision D3, log entry 8), and `pc`
goes on by 4, modulo 2^32 (decision D21, log entry 10), but not when the word is `0xFC000000`. -/
def Obligations.FetchReadsStampsAndAdvances : Prop :=
  ∀ s : State,
    (¬ s.FetchOk → step s = .fault (.outOfBounds .fetch s.pc)) ∧
    ∀ t : State, step s = .next t → ¬ s.Stalls s.ifid.instr →
      (rawSlot params s.ifid).ctl.jump = false →
      ((rawSlot params s.ifid).ctl.branch &&
        branchTaken (rawSlot params s.ifid).ctl (s.decodeRead (Field.rs s.ifid.instr)) (s.decodeRead (Field.rt s.ifid.instr))) = false →
      s.mem.read s.pc = some t.ifid.instr ∧ t.ifid.pc = s.pc ∧ t.ifid.valid = true ∧
        t.pc = if t.ifid.instr = 0xFC000000#32 then s.pc else s.pc + 4

/-- Writeback (R160): the destination, `rd` or `rt`, gets the memory result or the ALU result, unless it is register 0; no other
register changes in the cycle, whatever is in the other stages; and Decode's two reads of the same cycle see the write. -/
def Obligations.WritebackIsTheOnlyRegisterWrite : Prop :=
  ∀ s t : State, step s = .next t →
    (∀ r : RegId, RegFile.read t.regs r =
      if s.memwb.ctl.regWrite = true ∧ r ≠ 0 ∧ r = (if s.memwb.ctl.regDst then s.memwb.rd else s.memwb.rt) then
        (if s.memwb.ctl.memToReg then s.memwb.memResult else s.memwb.aluResult)
      else RegFile.read s.regs r) ∧
    (¬ s.Stalls s.ifid.instr →
      t.idex.rsVal = RegFile.read t.regs (Field.rs s.ifid.instr) ∧ t.idex.rtVal = RegFile.read t.regs (Field.rt s.ifid.instr))

/-- Execute (R150 to R155), on what ID/EX held: every field goes on to EX/MEM; each operand is EX/MEM's result, else MEM/WB's, else
the value read in Decode, as destinations other than 0 match (decision D20, log entry 21); the result is the operation of
`alu_op`, addition and subtraction modulo 2^32 (decision D5, log entry 10) and the comparison unsigned; the data to store is the
second operand before the immediate multiplexer (decision D16, log entry 18). -/
def Obligations.ExecuteCarriesAndComputes : Prop :=
  ∀ s t : State, step s = .next t →
    let operand (r : RegId) (raw : Word) : Word :=
      if s.exmem.ctl.regWrite = true ∧ r ≠ 0 ∧ r = (if s.exmem.ctl.regDst then s.exmem.rd else s.exmem.rt) then
        s.exmem.aluResult
      else if s.memwb.ctl.regWrite = true ∧ r ≠ 0 ∧ r = (if s.memwb.ctl.regDst then s.memwb.rd else s.memwb.rt) then
        (if s.memwb.ctl.memToReg then s.memwb.memResult else s.memwb.aluResult)
      else raw
    let a := operand s.idex.rs s.idex.rsVal
    let f := operand s.idex.rt s.idex.rtVal
    let b := if s.idex.ctl.aluSrc then s.idex.imm else f
    t.exmem.toIdEx = s.idex ∧ t.exmem.writeData = f ∧
    (s.idex.ctl.aluOp = 0 → t.exmem.aluResult = a + b) ∧
    (s.idex.ctl.aluOp = 1 → t.exmem.aluResult = a - b) ∧
    (s.idex.ctl.aluOp = 2 → t.exmem.aluResult = a &&& b) ∧
    (s.idex.ctl.aluOp = 3 → t.exmem.aluResult = a ||| b) ∧
    (s.idex.ctl.aluOp = 4 → t.exmem.aluResult = ~~~(a ||| b)) ∧
    (s.idex.ctl.aluOp = 5 → t.exmem.aluResult = if a.toNat < b.toNat then 1 else 0)

/-- MemoryAccess (R158): every field of EX/MEM goes on to MEM/WB; a read stages the memory result, and where there is none it is
not staged, so MEM/WB's keeps its value (R38, decision D18, log entry 20); a write changes the memory at the ALU-result address, and
where there is none the memory stays. -/
def Obligations.MemoryAccessReadsOrWrites : Prop :=
  ∀ s t : State, step s = .next t →
    t.memwb.toExMem = s.exmem ∧
    (s.exmem.ctl.memRead = true → s.mem.read s.exmem.aluResult = some t.memwb.memResult) ∧
    (s.exmem.ctl.memRead = false → t.memwb.memResult = s.memwb.memResult) ∧
    (s.exmem.ctl.memWrite = true → s.mem.write s.exmem.aluResult s.exmem.writeData = some t.mem) ∧
    (s.exmem.ctl.memWrite = false → t.mem = s.mem)

/-- The load-use check and the stall (R142, R143). The condition is written out: a load in ID/EX (`mem_read = 1`) whose `rt` equals the
bits in the place of `rs` or of `rt`, and nothing else: every instruction and every word in IF/ID is held by it, whether or not it
uses the register, register 0 included, valid or not (decision D23, log entry 22). With it, `pc` and IF/ID keep their values and
ID/EX becomes an all-zero bubble; without it, the word is not held: its own fields, register values and control signals enter
ID/EX. The same word does not stall again in the next cycle. -/
def Obligations.StallHoldsTheFrontEndForOneCycle : Prop :=
  ∀ s : State, s.FetchOk → s.DataOk →
    (∀ i, s.idex.ctl.memRead = true ∧ (s.idex.rt = Field.rs (encode i) ∨ s.idex.rt = Field.rt (encode i)) →
      exec i s = .next (s.advance s.pc s.ifid IdEx.zero)) ∧
    (∀ i t, ¬ (s.idex.ctl.memRead = true ∧ (s.idex.rt = Field.rs (encode i) ∨ s.idex.rt = Field.rt (encode i))) →
      exec i s = .next t →
      t.idex = s.decoded (encode i) (controlOf params true (Field.opcode (encode i)) (Field.funct (encode i)))) ∧
    (s.idex.ctl.memRead = true ∧ (s.idex.rt = Field.rs s.ifid.instr ∨ s.idex.rt = Field.rt s.ifid.instr) →
      step s = .next (s.advance s.pc s.ifid IdEx.zero)) ∧
    (∀ t, ¬ (s.idex.ctl.memRead = true ∧ (s.idex.rt = Field.rs s.ifid.instr ∨ s.idex.rt = Field.rt s.ifid.instr)) →
      step s = .next t →
      t.idex = s.decoded s.ifid.instr
        (controlOf params s.ifid.valid (Field.opcode s.ifid.instr) (Field.funct s.ifid.instr))) ∧
    (s.advance s.pc s.ifid IdEx.zero).idex.ctl.memRead = false

/-! ## Hazards and forwarding -/

/-- Load-use (R172): with a load of a register other than 0 in ID/EX and a word in Decode that names the loaded register, the cycle
puts one bubble between them, the next cycle decodes the word, and in Execute its operand is the loaded word. -/
def Obligations.LoadUseConsumerSeesTheLoadedWord : Prop :=
  ∀ s t u : State, s.idex.ctl = Row.lw → s.idex.rt ≠ 0 → s.Stalls s.ifid.instr → step s = .next t → step t = .next u →
    t.idex = IdEx.zero ∧ t.ifid = s.ifid ∧
    u.idex.rs = Field.rs s.ifid.instr ∧ u.idex.rt = Field.rt s.ifid.instr ∧
    (u.idex.rs = s.idex.rt → t.mem.read t.exmem.aluResult = some u.op1) ∧
    (u.idex.rt = s.idex.rt → t.mem.read t.exmem.aluResult = some u.rtOperand)

/-- Forwarding and the interlock together (R161, 70_reset_and_hazards.md rule R350). A word decoded in this cycle, which no load
holds off, has in Execute, for its two register operands, the values program order gives its `rs` and `rt` registers. A word held
off by a load stays in IF/ID, and the cycle changes no register's program-order value, so it is decoded in the next cycle with
the value it waited for. -/
def Obligations.ExecuteOperandsAreProgramOrderValues : Prop :=
  ∀ s t : State, s.Inv → step s = .next t →
    (¬ s.Stalls s.ifid.instr →
      t.op1 = s.progVal (Field.rs s.ifid.instr) ∧ t.rtOperand = s.progVal (Field.rt s.ifid.instr)) ∧
    (s.Stalls s.ifid.instr → t.ifid = s.ifid ∧ ¬ t.Stalls t.ifid.instr ∧ ∀ r, t.progVal r = s.progVal r)

/-! ## Register-register ALU instructions (41_alu_register.md) -/

/-- `add`, `sub`, `and`, `or`, `nor` and `slt`, alone in the pipeline, complete with the result of R201 to R206 in `rd` (nothing
written when `rd` is register 0, R209); sums and differences wrap modulo 2^32 (decision D5, log entry 10), `slt` compares
unsigned. -/
def Obligations.AluRegisterInstructionsComplete : Prop :=
  ∀ (s : State) (rs rt rd : RegId) (shamt : Shamt), s.Alone →
    let a := RegFile.read s.regs rs
    let b := RegFile.read s.regs rt
    WritesAlone (.add rs rt rd shamt) s rd (a + b) ∧
    WritesAlone (.sub rs rt rd shamt) s rd (a - b) ∧
    WritesAlone (.and rs rt rd shamt) s rd (a &&& b) ∧
    WritesAlone (.or rs rt rd shamt) s rd (a ||| b) ∧
    WritesAlone (.nor rs rt rd shamt) s rd (~~~(a ||| b)) ∧
    WritesAlone (.slt rs rt rd shamt) s rd (if a.toNat < b.toNat then 1 else 0)

/-- The same six instructions in any company, where no load holds them off: with the operands' program-order values (R200), whatever
older and younger instructions are in flight; sums and differences wrap modulo 2^32 (decision D5, log entry 10), `slt` compares
unsigned. -/
def Obligations.AluRegisterResultsInProgramOrder : Prop :=
  ∀ (s : State) (rs rt rd : RegId) (shamt : Shamt), s.Inv → ¬ s.LoadUse rs rt →
    let a := s.progVal rs
    let b := s.progVal rt
    WritesInOrder (.add rs rt rd shamt) s rd (a + b) ∧
    WritesInOrder (.sub rs rt rd shamt) s rd (a - b) ∧
    WritesInOrder (.and rs rt rd shamt) s rd (a &&& b) ∧
    WritesInOrder (.or rs rt rd shamt) s rd (a ||| b) ∧
    WritesInOrder (.nor rs rt rd shamt) s rd (~~~(a ||| b)) ∧
    WritesInOrder (.slt rs rt rd shamt) s rd (if a.toNat < b.toNat then 1 else 0)

/-! ## Register-immediate ALU instructions (42_alu_immediate.md) -/

/-- `addi`, `andi`, `ori` and `slti`, alone in the pipeline, complete with the result of R222 to R225 in `rt` (nothing written when
`rt` is register 0, R226); the immediate is sign-extended for all four (decision D4, log entry 4), `slti` compares unsigned. -/
def Obligations.AluImmediateInstructionsComplete : Prop :=
  ∀ (s : State) (rs rt : RegId) (imm : Imm16), s.Alone →
    let a := RegFile.read s.regs rs
    let e : Word := imm.signExtend 32
    WritesAlone (.addi rs rt imm) s rt (a + e) ∧
    WritesAlone (.andi rs rt imm) s rt (a &&& e) ∧
    WritesAlone (.ori rs rt imm) s rt (a ||| e) ∧
    WritesAlone (.slti rs rt imm) s rt (if a.toNat < e.toNat then 1 else 0)

/-- The same four instructions in any company, where no load holds them off, with the operand's program-order value (R220). The
immediate is sign-extended for all four: for `andi` and `ori` that is the default of the parameter ALU_IMM_EXT (decision D4, log
entry 4, DESIGN CHOICE); sums wrap modulo 2^32 (decision D5, log entry 10). -/
def Obligations.AluImmediateResultsInProgramOrder : Prop :=
  ∀ (s : State) (rs rt : RegId) (imm : Imm16), s.Inv → ¬ s.LoadUse rs rt →
    let a := s.progVal rs
    let e : Word := imm.signExtend 32
    WritesInOrder (.addi rs rt imm) s rt (a + e) ∧
    WritesInOrder (.andi rs rt imm) s rt (a &&& e) ∧
    WritesInOrder (.ori rs rt imm) s rt (a ||| e) ∧
    WritesInOrder (.slti rs rt imm) s rt (if a.toNat < e.toNat then 1 else 0)

/-! ## Loads and stores (44_load_store.md) -/

/-- `lw`, alone in the pipeline with its effective address inside the image, completes with the word there in `rt` (R261). -/
def Obligations.LoadCompletes : Prop :=
  ∀ (s : State) (rs rt : RegId) (imm : Imm16), s.Alone →
    let ea : Word := RegFile.read s.regs rs + imm.signExtend 32
    s.mem.inBounds ea →
    ∃ s₁ s₄, exec (.lw rs rt imm) s = .next s₁ ∧ State.cycles 3 s₁ = .next s₄ ∧
      RegsWritten s s₄ rt (s.mem.wordAt (wordIndex ea)) ∧ MemKept s s₄

/-- `sw`, alone in the pipeline with its effective address inside the image, completes with `x[rt]` in the word there and every
other byte and every register unchanged (R262; decision D16, log entry 18). -/
def Obligations.StoreCompletes : Prop :=
  ∀ (s : State) (rs rt : RegId) (imm : Imm16), s.Alone → s.mem.wf →
    let ea : Word := RegFile.read s.regs rs + imm.signExtend 32
    s.mem.inBounds ea →
    ∃ s₁ s₃ s₄, exec (.sw rs rt imm) s = .next s₁ ∧ State.cycles 2 s₁ = .next s₃ ∧ step s₃ = .next s₄ ∧
      WordStored s s₃ ea (RegFile.read s.regs rt) ∧ MemKept s₃ s₄ ∧ RegsKept s s₄

/-- `lw` and `sw` with an effective address outside the image: Fatal in the cycle after next, with that address (R261, R262,
R301; the names are decision D15, log entry 17). -/
def Obligations.AccessOutsideTheImageIsFatal : Prop :=
  ∀ (s : State) (rs rt : RegId) (imm : Imm16), s.Alone →
    let ea : Word := RegFile.read s.regs rs + imm.signExtend 32
    ¬ s.mem.inBounds ea →
    (∃ s₁, exec (.lw rs rt imm) s = .next s₁ ∧ State.cycles 2 s₁ = .fault (.outOfBounds .load ea)) ∧
    (∃ s₁, exec (.sw rs rt imm) s = .next s₁ ∧ State.cycles 2 s₁ = .fault (.outOfBounds .store ea))

/-- `lw` in any company: its Writeback writes, to `rt` alone, the word its MemoryAccess finds at the address formed with the
base's program-order value (R260, R261, 20_memory.md rule R69). -/
def Obligations.LoadsInProgramOrder : Prop :=
  ∀ (s s₁ s₂ s₃ s₄ : State) (rs rt : RegId) (imm : Imm16), s.Inv → ¬ s.LoadUse rs rt →
    Passes (.lw rs rt imm) s s₁ s₂ s₃ s₄ →
    RegsWritten s₃ s₄ rt (s₂.mem.wordAt (wordIndex (s.progVal rs + imm.signExtend 32))) ∧ MemKept s₂ s₃

/-- `sw` in any company: its MemoryAccess stores the program-order value of `rt` (R262, R264; decision D16, log entry 18) at the
address formed with the base's program-order value, and its Writeback writes no register. -/
def Obligations.StoresInProgramOrder : Prop :=
  ∀ (s s₁ s₂ s₃ s₄ : State) (rs rt : RegId) (imm : Imm16), s.Inv → ¬ s.LoadUse rs rt →
    Passes (.sw rs rt imm) s s₁ s₂ s₃ s₄ →
    WordStored s₂ s₃ (s.progVal rs + imm.signExtend 32) (s.progVal rt) ∧ RegsKept s₃ s₄

/-! ## Control transfer (43_branch_jump.md) -/

/-- `beq` and `bne` (R144), on all 32 bits of the register values Decode reads in this cycle: taken, the counter is the branch's own
address plus 4 plus four times the signed offset, modulo 2^32 (R145; decision D21, log entry 10), and IF/ID is flushed to zeros
(decision D9, log entry 9); not taken, the next word follows. The branch goes on into ID/EX either way. -/
def Obligations.BranchesResolveInDecode : Prop :=
  ∀ (s : State) (rs rt : RegId) (off : Imm16), s.FetchOk → s.DataOk → ¬ s.LoadUse rs rt →
    let target : Word := s.ifid.pc + 4 + 4 * off.signExtend 32
    let beq := s.decoded (encode (.beq rs rt off)) Row.beq
    let bne := s.decoded (encode (.bne rs rt off)) Row.bne
    exec (.beq rs rt off) s =
      .next (if s.decodeRead rs = s.decodeRead rt then s.advance target IfId.zero beq else s.sequel beq) ∧
    exec (.bne rs rt off) s =
      .next (if s.decodeRead rs ≠ s.decodeRead rt then s.advance target IfId.zero bne else s.sequel bne)

/-- `j` (30_encoding.md rule R95; R244): the counter is four times the address field, its upper four bits 0 whatever the old counter
was, and IF/ID is flushed to zeros (decision D9, log entry 9). -/
def Obligations.JumpGoesToFourTimesItsAddress : Prop :=
  ∀ (s : State) (addr : Addr26), s.FetchOk → s.DataOk → ¬ s.Stalls (encode (.j addr)) →
    exec (.j addr) s =
      .next (s.advance (4 * addr.setWidth 32) IfId.zero (s.decoded (encode (.j addr)) Row.j)) ∧
    (4 * addr.setWidth 32 : Word) = (0 : BitVec 4) ++ addr ++ (0 : BitVec 2)

/-- `jr` (R245): with a register value that is a multiple of 4 the counter is that value (decision D17, log entry 19) and IF/ID is
flushed; with another value the run ends in Fatal, which no access of MemoryAccess in the same cycle forestalls. -/
def Obligations.JumpRegisterGoesToItsRegister : Prop :=
  ∀ (s : State) (rs rt rd : RegId) (shamt : Shamt), s.FetchOk → ¬ s.LoadUse rs rt →
    ((s.decodeRead rs).toNat % 4 = 0 → s.DataOk →
      exec (.jr rs rt rd shamt) s =
        .next (s.advance (s.decodeRead rs) IfId.zero (s.decoded (encode (.jr rs rt rd shamt)) Row.jr))) ∧
    ((s.decodeRead rs).toNat % 4 ≠ 0 →
      exec (.jr rs rt rd shamt) s = .fault (.misalignedJumpRegister (s.decodeRead rs)))

/-- The transfers and `halt` write no register and no memory on their way through the pipeline (R240, 45_halt_nop.md rule R280). -/
def Obligations.TransfersAndHaltWriteNothing : Prop :=
  ∀ (i : Instr) (s s₁ s₂ s₃ s₄ : State),
    (i.mnemonic = "beq" ∨ i.mnemonic = "bne" ∨ i.mnemonic = "j" ∨ i.mnemonic = "jr" ∨ i.mnemonic = "halt") →
    Passes i s s₁ s₂ s₃ s₄ → MemKept s₂ s₃ ∧ RegsKept s₃ s₄

/-! ## Halt (45_halt_nop.md) -/

/-- `halt`, alone in the pipeline, ends the run: `halted` becomes true at the end of the second cycle after its Decode, not before,
and no register and no byte of memory has changed (R280, R281). `code` ranges over every value of the 26 bits: that a word with
opcode `0x3F` which is not the canonical one is a halt to Decode is decision D8 (log entry 13, R283). -/
def Obligations.HaltCompletes : Prop :=
  ∀ (s : State) (code : Addr26), s.Alone →
    ∃ s₁ s₂ s₃, exec (.halt code) s = .next s₁ ∧ step s₁ = .next s₂ ∧ step s₂ = .next s₃ ∧
      s₁.halted = false ∧ s₂.halted = false ∧ s₃.halted = true ∧ RegsKept s s₃ ∧ MemKept s s₃

/-- `halt` in any company, canonical or not (decision D8, log entry 13): with no load to wait for, `halted` is true after its
MemoryAccess (40_pipeline_cycle.md rule R162, R283). -/
def Obligations.HaltReachesWriteback : Prop :=
  ∀ (s s₁ s₂ s₃ : State) (code : Addr26), ¬ s.Stalls (encode (.halt code)) →
    exec (.halt code) s = .next s₁ → step s₁ = .next s₂ → step s₂ = .next s₃ → s₃.halted = true

/-- The freeze (40_pipeline_cycle.md rule R131): once the canonical halt word is in IF/ID and `pc` is still at it, a cycle fetches it
again and leaves both as they are; and where the instruction in MemoryAccess does not store to that very word, the word still
stands there afterwards, so that the next cycle finds what this one did. -/
def Obligations.CanonicalHaltHoldsTheCounter : Prop :=
  ∀ s t : State, s.ifid = ⟨Config.haltWord, s.pc, true⟩ → s.mem.read s.pc = some Config.haltWord → step s = .next t →
    t.pc = s.pc ∧ t.ifid = s.ifid ∧ t.idex.ctl ∈ [Row.halt, Controls.zero] ∧
    (¬ (s.exmem.ctl.memWrite = true ∧ wordIndex s.exmem.aluResult = wordIndex s.pc) →
      t.mem.read t.pc = some Config.haltWord)

/-! ## Fatal conditions (60_exceptions.md) -/

/-- The complete list of Fatal conditions and their order within a cycle (R301, R305; the names are decision D15, log entry 17):
the fetch first, then a resolved `jr`'s misaligned register, then MemoryAccess's read or write. -/
def Obligations.FatalConditionsAndTheirPriority : Prop :=
  ∀ (s : State) (f : Fault), step s = .fault f ↔
    (¬ s.FetchOk ∧ f = .outOfBounds .fetch s.pc) ∨
    (s.FetchOk ∧
      ((∃ rs rt rd shamt, s.instrInDecode = some (.jr rs rt rd shamt) ∧ ¬ s.Stalls s.ifid.instr ∧
          (s.decodeRead rs).toNat % 4 ≠ 0 ∧ f = .misalignedJumpRegister (s.decodeRead rs)) ∨
        ((∀ rs rt rd shamt, s.instrInDecode = some (.jr rs rt rd shamt) → ¬ s.Stalls s.ifid.instr →
            (s.decodeRead rs).toNat % 4 = 0) ∧
          ¬ s.mem.inBounds s.exmem.aluResult ∧
          ((s.exmem.ctl.memRead = true ∧ f = .outOfBounds .load s.exmem.aluResult) ∨
            (s.exmem.ctl.memRead = false ∧ s.exmem.ctl.memWrite = true ∧ f = .outOfBounds .store s.exmem.aluResult)))))

/-! ## Memory (20_memory.md) -/

/-- `MemWrite` (R62): outside the image it is Fatal; inside, it changes all 32 bits of the word at its index at once and no other
word, and the image keeps its size. -/
def Obligations.ReadsReturnTheLatestWrite : Prop :=
  ∀ (m : Memory) (a v : Word), m.wf →
    (m.words ≤ (a >>> 2).toNat → m.write a v = none) ∧
    ((a >>> 2).toNat < m.words → ∃ m', m.write a v = some m' ∧ m'.words = m.words ∧
      ∀ b : Word, m'.read b = if b >>> 2 = a >>> 2 then some v else m.read b)

/-- Addressing and `MemRead` (R60, R61): the word index is `a >> 2`, and an index that is not below the image's size is outside; the
two low address bits are ignored, for reads and writes alike. -/
def Obligations.AccessesUseTheWordIndex : Prop :=
  ∀ (m : Memory) (a : Word),
    (m.words ≤ (a >>> 2).toNat → m.read a = none) ∧
    ((a >>> 2).toNat < m.words → m.read a = some (m.wordAt (a >>> 2).toNat)) ∧
    ∀ b v : Word, a >>> 2 = b >>> 2 → m.read a = m.read b ∧ m.write a v = m.write b v

/-- What an instruction's cycle leaves unchanged (R121, R158, R160): every register but MEM/WB's destination, the image's size, and
every byte outside the word that EX/MEM's store goes to (all of memory where it stores nothing). -/
def Obligations.CycleFrame : Prop :=
  ∀ (i : Instr) (s t : State), exec i s = .next t →
    (∀ r, s.memwb.ctl.regWrite = false ∨ r = 0 ∨ r ≠ s.memwb.dest → RegFile.read t.regs r = RegFile.read s.regs r) ∧
    t.mem.words = s.mem.words ∧
    (∀ a, s.exmem.ctl.memWrite = false ∨ a / 4 ≠ wordIndex s.exmem.aluResult → t.mem.byteAt a = s.mem.byteAt a)

/-- Fetch and store in one cycle (R72): what enters IF/ID is the word from before the store, and after the cycle the memory, which
the next cycle's fetch reads, holds the stored word. -/
def Obligations.FetchComesBeforeTheStore : Prop :=
  ∀ s t : State, s.mem.wf → s.exmem.ctl.memWrite = true → step s = .next t →
    (t.ifid = s.ifid ∨ t.ifid = IfId.zero ∨ t.ifid = ⟨s.fetched, s.pc, true⟩) ∧
    t.fetched = if wordIndex t.pc = wordIndex s.exmem.aluResult then s.exmem.writeData else s.mem.wordAt (wordIndex t.pc)

/-- The loader (R64): word `k` of the image is bytes `4k` to `4k+3` of the file, low byte first, and the image has as many words as
the file has whole groups of four bytes. -/
def Obligations.ImageWordsAreLittleEndian : Prop :=
  ∀ (bytes : List Byte), (loadImage bytes).words = bytes.length / 4 ∧
    ∀ (k : Nat) (h : 4 * k + 3 < bytes.length),
      (loadImage bytes).wordAt k = bytes[4 * k + 3] ++ bytes[4 * k + 2] ++ bytes[4 * k + 1] ++ bytes[4 * k]

/-! ## Invariants and register 0 -/

/-- Register 0 (10_state.md rule R24): after any sequence of writeback commits, those targeting destination 0 among them, register
0 reads 0; a step leaves it at 0; and the forwarding multiplexers never forward a result for it. -/
def Obligations.RegisterZeroStaysZero : Prop :=
  (∀ (x : RegFile) (commits : List (RegId × Word)), RegFile.read x 0 = 0 →
    RegFile.read (commits.foldl (fun y c => RegFile.commit y c.1 c.2) x) 0 = 0) ∧
  (∀ s t : State, step s = .next t → RegFile.read s.regs 0 = 0 → RegFile.read t.regs 0 = 0) ∧
  ∀ (exmem : ExMem) (memwb : MemWb) (raw : Word), forward exmem memwb 0 raw = raw

/-- Every step keeps the invariant of R46 (a) to (e) and the canonical form of the memory, from every state that has it. -/
def Obligations.EveryStepKeepsTheInvariant : Prop :=
  ∀ s t : State, s.Inv → step s = .next t → t.Inv

/-- The state after reset has the invariant. -/
def Obligations.ResetHasTheInvariant : Prop := State.reset.Inv

/-- So has the state after reset with any image loaded. -/
def Obligations.EveryLoadedImageHasTheInvariant : Prop := ∀ bytes : List Byte, (State.boot bytes).Inv

/-! ## Reset, the first cycle, the outputs and the counters -/

/-- The reset values (70_reset_and_hazards.md rule R341): registers 0, `pc = 0x00001000`, all four latches zero, nothing staged and
everything enabled in every cell, `halted = 0`, `isBubble = 1`. -/
def Obligations.ResetValues : Prop :=
  State.reset.pc = 0x00001000#32 ∧ (∀ r, RegFile.read State.reset.regs r = 0) ∧
  State.reset.ifid = ⟨0, 0, false⟩ ∧
  State.reset.idex = IdEx.zero ∧ State.reset.exmem = ExMem.zero ∧ State.reset.memwb = MemWb.zero ∧
  (Clocked.start State.reset).isClean = true ∧
  State.reset.halted = false ∧ State.reset.isBubble = true

/-- Cycle 1 (70_reset_and_hazards.md rules R342, R345): with an image of at least 1025 words it reads the word at `0x1000` into
IF/ID and changes nothing else but `pc`; with a shorter image it is Fatal (20_memory.md rule R67). -/
def Obligations.FirstCycleFetchesTheResetVector : Prop :=
  ∀ bytes : List Byte,
    let s := State.boot bytes
    (bytes.length / 4 < 1025 → step s = .fault (.outOfBounds .fetch 0x00001000#32)) ∧
    (1025 ≤ bytes.length / 4 →
      step s = .next
        { s with
          pc := if s.mem.wordAt 1024 = Config.haltWord then 0x00001000#32 else 0x00001004#32
          ifid := ⟨s.mem.wordAt 1024, 0x00001000#32, true⟩ })

/-- `isBubble` (40_pipeline_cycle.md rule R163, decision D28, log entry 24): of the rows of the control table it is true of the
all-zero one alone, so each of the seventeen instructions is counted. -/
def Obligations.OnlyTheZeroRowIsABubble : Prop :=
  ∀ c ∈ controlRows, c.isBubble = true ↔ c = Controls.zero

/-- The exact count of R174 and 70_reset_and_hazards.md rule R362: in a run from reset that ends in `halt`, the first four cycles
show the bubbles of reset, `retired` is the number of cycles whose MEM/WB holds anything but the all-zero row, and with B the
number of all-zero slots after the first four, cycles = retired + B + 4 (the counting is decisions D13 and D14, log entries 15
and 16). -/
def Obligations.FourCyclesOfOverhead : Prop :=
  ∀ (m : Memory) (n : Nat) (d : Driver),
    let s : State := { State.reset with mem := m }
    Driver.run n (Driver.start s) = .halted d →
      let slots := State.slots d.cycles s
      slots.length = d.cycles ∧
      slots.take 4 = List.replicate 4 Controls.zero ∧
      d.retired = slots.countP (fun c => c ≠ Controls.zero) ∧
      d.cycles = d.retired + (slots.drop 4).count Controls.zero + 4

/-! ## Parameters, cells, the reset input and the ports -/

/-- ALU_IMM_EXT (00_scope.md rule R5; R94, decision D4, log entry 4): under `zero_for_logical` the 16-bit immediate of `andi` and
`ori` is zero-extended, under `sign` it is sign-extended; for every other instruction with an immediate, and for the branch target,
it is sign-extended under both. That the zero-extended value stands in ID/EX's own immediate field is the model's choice (log
entry 32, DESIGN CHOICE). -/
def Obligations.ImmediatesFollowTheParameter : Prop :=
  ∀ (p : Params) (s : State) (rs rt : RegId) (imm : Imm16), p.wf → s.FetchOk → s.DataOk → ¬ s.LoadUse rs rt →
    let signed : Word := imm.signExtend 32
    let logical : Word :=
      match p.aluImmExt with
      | .sign => imm.signExtend 32
      | .zeroForLogical => imm.setWidth 32
    (∀ i ∈ [Instr.andi rs rt imm, .ori rs rt imm],
      ∃ t, execWith p i s = .next t ∧ t.idex.ctl.aluSrc = true ∧ t.idex.imm = logical) ∧
    (∀ i ∈ [Instr.addi rs rt imm, .slti rs rt imm, .lw rs rt imm, .sw rs rt imm],
      ∃ t, execWith p i s = .next t ∧ t.idex.ctl.aluSrc = true ∧ t.idex.imm = signed) ∧
    (s.decodeRead rs = s.decodeRead rt →
      ∃ t, execWith p (.beq rs rt imm) s = .next t ∧ t.pc = s.ifid.pc + 4 + 4 * signed) ∧
    (s.decodeRead rs ≠ s.decodeRead rt →
      ∃ t, execWith p (.bne rs rt imm) s = .next t ∧ t.pc = s.ifid.pc + 4 + 4 * signed)

/-- A latch is a collection of cells, one per field (R34), shown on these fields: each of IF/ID's three, frozen alone for one edge,
keeps its value while the two others commit, and the whole of IF/ID frozen keeps all three; `rt`, `alu_op` and `mem_result` of
MEM/WB, each staged alone, change alone. The bulk forwards into EX/MEM and into MEM/WB stage the fields the source has and no other,
so `alu_result`, `write_data` and `mem_result` keep their values (R38). After the clock edge every cell of the core has nothing
staged and is enabled (R122). -/
def Obligations.LatchFieldsAreCellsOfTheirOwn : Prop :=
  (∀ (f g : IfId),
    let c := (IfIdCells.clean f).stage g
    ({ c with instr := c.instr.disable }).edge.read = { g with instr := f.instr } ∧
    ({ c with pc := c.pc.disable }).edge.read = { g with pc := f.pc } ∧
    ({ c with valid := c.valid.disable }).edge.read = { g with valid := f.valid } ∧
    c.disable.edge.read = f) ∧
  (∀ (l : MemWb) (rt : RegId) (op : BitVec 3) (v : Word),
    let c := MemWbCells.clean l
    ({ c with rt := c.rt.stage rt }).edge.read = { l with rt := rt } ∧
    ({ c with ctl := { c.ctl with aluOp := c.ctl.aluOp.stage op } }).edge.read = { l with ctl := { l.ctl with aluOp := op } } ∧
    ({ c with memResult := c.memResult.stage v }).edge.read = { l with memResult := v }) ∧
  (∀ (l : MemWb) (m : ExMem), ((MemWbCells.clean l).forward (.clean m)).edge.read = ⟨m, l.memResult⟩) ∧
  (∀ (l : ExMem) (m : IdEx), ((ExMemCells.clean l).forward (.clean m)).edge.read = ⟨m, l.aluResult, l.writeData⟩) ∧
  ∀ c : Clocked, c.edge.isClean = true

/-- The reset input (70_reset_and_hazards.md rule R340, decision D11, log entry 14): asserted in any state, it puts every general
register, `pc` and every latch field at the value of R341, leaves the memory as it is, and holds the core there; inside a cycle it
clears whatever was staged or disabled; not asserted, the cycle is the step. With a reloaded image it is the start of a new run. -/
def Obligations.ResetKeepsTheMemory : Prop :=
  ∀ s : State,
    stepUnderReset false s = step s ∧
    (∃ t, stepUnderReset true s = .next t ∧ t.mem = s.mem ∧
      t.pc = 0x00001000#32 ∧ (∀ r, RegFile.read t.regs r = 0) ∧
      t.ifid = ⟨0, 0, false⟩ ∧ t.idex = IdEx.zero ∧ t.exmem = ExMem.zero ∧ t.memwb = MemWb.zero ∧
      t.halted = false ∧ t.isBubble = true ∧ stepUnderReset true t = .next t) ∧
    (∀ c : Clocked, c.committed = s → c.reset.isClean = true ∧ c.reset.committed = s.resetCore) ∧
    ∀ bytes : List Byte, (s.load bytes).resetCore = State.boot bytes

/-- The ports (70_reset_and_hazards.md rule R365, decision D10, log entry 14). The core on its inputs makes the same cycle as the
step when the memory answers its outputs: the fetched word, the loaded word and the two out-of-bounds indications; with `reset`
asserted it goes to its reset state whatever the other inputs are; and it sees nothing of the memory but through the inputs. -/
def Obligations.PortsCarryTheCycle : Prop :=
  ∀ (p : Params) (i : Inputs) (s : State), p.wf →
    (i.reset = false → i.Answers s.mem s.ports → portCycle p i s = stepWith p s) ∧
    (i.reset = true → portCycle p i s = .next s.resetCore) ∧
    ∀ (m : Memory) (t : State), portCycle p i s = .next t →
      ∃ u, portCycle p i { s with mem := m } = .next u ∧ t = { u with mem := t.mem }
end

