-- ==== Sys2Proof/Laws/State.lean ====
section
/-! SUPPORT. The small lemmas of the state's records: one per field per named update or constant, true by rfl. -/

namespace Sys2Proof.Machine

/-! ## The all-zero latches -/

@[simp] theorem IdEx.zero_ctl : IdEx.zero.ctl = Controls.zero := rfl
@[simp] theorem IdEx.zero_rs : IdEx.zero.rs = 0 := rfl
@[simp] theorem IdEx.zero_rt : IdEx.zero.rt = 0 := rfl
@[simp] theorem ExMem.zero_ctl : ExMem.zero.ctl = Controls.zero := rfl
@[simp] theorem MemWb.zero_ctl : MemWb.zero.ctl = Controls.zero := rfl
@[simp] theorem IfId.zero_valid : IfId.zero.valid = false := rfl
@[simp] theorem IfId.zero_pc : IfId.zero.pc = 0 := rfl
@[simp] theorem IfId.zero_instr : IfId.zero.instr = 0 := rfl

@[simp] theorem Controls.zero_regWrite : Controls.zero.regWrite = false := rfl
@[simp] theorem Controls.zero_regDst : Controls.zero.regDst = false := rfl
@[simp] theorem Controls.zero_aluSrc : Controls.zero.aluSrc = false := rfl
@[simp] theorem Controls.zero_memToReg : Controls.zero.memToReg = false := rfl
@[simp] theorem Controls.zero_memRead : Controls.zero.memRead = false := rfl
@[simp] theorem Controls.zero_memWrite : Controls.zero.memWrite = false := rfl
@[simp] theorem Controls.zero_branch : Controls.zero.branch = false := rfl
@[simp] theorem Controls.zero_branchNe : Controls.zero.branchNe = false := rfl
@[simp] theorem Controls.zero_jump : Controls.zero.jump = false := rfl
@[simp] theorem Controls.zero_jumpSrc : Controls.zero.jumpSrc = false := rfl
@[simp] theorem Controls.zero_aluOp : Controls.zero.aluOp = 0 := rfl
@[simp] theorem Controls.zero_halt : Controls.zero.halt = false := rfl

/-! ## Part 1 of Decode -/

@[simp] theorem Slot.toIdEx_toSlot (d : Slot) (x : RegFile) : (d.toIdEx x).toSlot = d := rfl
@[simp] theorem Slot.toIdEx_rsVal (d : Slot) (x : RegFile) : (d.toIdEx x).rsVal = RegFile.read x d.rs := rfl
@[simp] theorem Slot.toIdEx_rtVal (d : Slot) (x : RegFile) : (d.toIdEx x).rtVal = RegFile.read x d.rt := rfl

/-! ## Execute's bulk forward -/

@[simp] theorem State.execute_toIdEx (s : State) : s.execute.toIdEx = s.idex := rfl
@[simp] theorem State.execute_aluResult (s : State) : s.execute.aluResult = alu s.idex.ctl.aluOp s.op1 s.op2 := rfl
@[simp] theorem State.execute_writeData (s : State) : s.execute.writeData = s.rtOperand := rfl

/-! ## The next state of a cycle -/

@[simp] theorem State.advance_pc (s : State) (pc : Word) (f : IfId) (e : IdEx) : (s.advance pc f e).pc = pc := rfl
@[simp] theorem State.advance_regs (s : State) (pc : Word) (f : IfId) (e : IdEx) :
    (s.advance pc f e).regs = s.regsAfterWriteback := rfl
@[simp] theorem State.advance_ifid (s : State) (pc : Word) (f : IfId) (e : IdEx) : (s.advance pc f e).ifid = f := rfl
@[simp] theorem State.advance_idex (s : State) (pc : Word) (f : IfId) (e : IdEx) : (s.advance pc f e).idex = e := rfl
@[simp] theorem State.advance_exmem (s : State) (pc : Word) (f : IfId) (e : IdEx) : (s.advance pc f e).exmem = s.execute := rfl
@[simp] theorem State.advance_memwb (s : State) (pc : Word) (f : IfId) (e : IdEx) :
    (s.advance pc f e).memwb = ⟨s.exmem, s.memResultAfter⟩ := rfl
@[simp] theorem State.advance_mem (s : State) (pc : Word) (f : IfId) (e : IdEx) : (s.advance pc f e).mem = s.memAfter := rfl

/-! ## The ALU's six operations (40_pipeline_cycle.md rule R154) -/

@[simp] theorem alu_add (a b : Word) : alu 0#3 a b = a + b := rfl
@[simp] theorem alu_sub (a b : Word) : alu 1#3 a b = a - b := rfl
@[simp] theorem alu_and (a b : Word) : alu 2#3 a b = a &&& b := rfl
@[simp] theorem alu_or (a b : Word) : alu 3#3 a b = a ||| b := rfl
@[simp] theorem alu_nor (a b : Word) : alu 4#3 a b = ~~~(a ||| b) := rfl
@[simp] theorem alu_slt (a b : Word) : alu 5#3 a b = if a.toNat < b.toNat then 1 else 0 := rfl

/-! ## The state a Fatal leaves (60_exceptions.md rule R307) -/

@[simp] theorem State.afterFatal_pc (s : State) (f : Fault) : (s.afterFatal f).pc = s.pc := by
  cases f <;> first | rfl | (rename_i k _; cases k <;> rfl)
@[simp] theorem State.afterFatal_mem (s : State) (f : Fault) : (s.afterFatal f).mem = s.mem := by
  cases f <;> first | rfl | (rename_i k _; cases k <;> rfl)

/-! ## Reset and loading (70_reset_and_hazards.md rule R340) -/

@[simp] theorem State.resetCore_pc (s : State) : s.resetCore.pc = Config.pcReset := rfl
@[simp] theorem State.resetCore_regs (s : State) : s.resetCore.regs = State.reset.regs := rfl
@[simp] theorem State.resetCore_ifid (s : State) : s.resetCore.ifid = IfId.zero := rfl
@[simp] theorem State.resetCore_idex (s : State) : s.resetCore.idex = IdEx.zero := rfl
@[simp] theorem State.resetCore_exmem (s : State) : s.resetCore.exmem = ExMem.zero := rfl
@[simp] theorem State.resetCore_memwb (s : State) : s.resetCore.memwb = MemWb.zero := rfl
@[simp] theorem State.resetCore_mem (s : State) : s.resetCore.mem = s.mem := rfl
@[simp] theorem State.load_mem (s : State) (bytes : List Byte) : (s.load bytes).mem = loadImage bytes := rfl
@[simp] theorem State.boot_mem (bytes : List Byte) : (State.boot bytes).mem = loadImage bytes := rfl
@[simp] theorem State.boot_pc (bytes : List Byte) : (State.boot bytes).pc = Config.pcReset := rfl

/-! ## The core's outputs (70_reset_and_hazards.md rule R365) -/

@[simp] theorem State.ports_fetchAddress (s : State) : s.ports.fetchAddress = s.pc := rfl
@[simp] theorem State.ports_dataAddress (s : State) : s.ports.dataAddress = s.exmem.aluResult := rfl
@[simp] theorem State.ports_dataWrite (s : State) : s.ports.dataWrite = s.exmem.writeData := rfl
@[simp] theorem State.ports_memRead (s : State) : s.ports.memRead = s.exmem.ctl.memRead := rfl
@[simp] theorem State.ports_memWrite (s : State) : s.ports.memWrite = s.exmem.ctl.memWrite := rfl
@[simp] theorem State.ports_halted (s : State) : s.ports.halted = s.halted := rfl
@[simp] theorem State.ports_isBubble (s : State) : s.ports.isBubble = s.isBubble := rfl

/-! ## Memory records -/

@[simp] theorem Memory.setWord_words (m : Memory) (k : Nat) (v : Word) : (m.setWord k v).words = m.words := rfl
@[simp] theorem Memory.growTo_cells (m : Memory) (n : Nat) : (m.growTo n).cells = m.cells := rfl
@[simp] theorem Memory.growTo_words (m : Memory) (n : Nat) : (m.growTo n).words = max m.words n := rfl

/-! ## Placing a word -/

@[simp] theorem State.placeWord_pc (s : State) (w : Word) : (s.placeWord w).pc = fetchPc s.pc w := rfl
@[simp] theorem State.placeWord_ifid (s : State) (w : Word) : (s.placeWord w).ifid = ⟨w, s.pc, true⟩ := rfl
@[simp] theorem State.placeWord_regs (s : State) (w : Word) : (s.placeWord w).regs = s.regs := rfl
@[simp] theorem State.placeWord_idex (s : State) (w : Word) : (s.placeWord w).idex = s.idex := rfl
@[simp] theorem State.placeWord_exmem (s : State) (w : Word) : (s.placeWord w).exmem = s.exmem := rfl
@[simp] theorem State.placeWord_memwb (s : State) (w : Word) : (s.placeWord w).memwb = s.memwb := rfl

end Sys2Proof.Machine
end

