-- ==== Sys2Proof/Laws/Decode.lean ====
section
/-! SUPPORT. The fields of encoded words (30_encoding.md rule R91), and what the meaning of each instruction hands to the clock
cycle, in terms of the instruction's word. -/

namespace Sys2Proof

/-! ## Cutting fields out of a concatenation -/

/-- A field that lies in the low part. -/
theorem extract_append_low {m n : Nat} (a : BitVec m) (b : BitVec n) (lo len : Nat) (h : lo + len ≤ n) :
    (a ++ b).extractLsb' lo len = b.extractLsb' lo len := by
  ext i hi
  simp only [BitVec.getElem_extractLsb', BitVec.getLsbD_append]
  rw [if_pos (by omega)]

/-- A field that lies in the high part. -/
theorem extract_append_high {m n : Nat} (a : BitVec m) (b : BitVec n) (lo len : Nat) (h : n ≤ lo) :
    (a ++ b).extractLsb' lo len = a.extractLsb' (lo - n) len := by
  ext i hi
  simp only [BitVec.getElem_extractLsb', BitVec.getLsbD_append]
  rw [if_neg (by omega), show lo + i - n = lo - n + i by omega]

/-- The field that is the whole. -/
theorem extract_whole {n : Nat} (b : BitVec n) : b.extractLsb' 0 n = b := by
  ext i hi
  simp

/-- Two neighbouring fields put together are the field that spans them. -/
theorem extract_append_extract {n : Nat} (w : BitVec n) (lo len len' : Nat) :
    w.extractLsb' (lo + len) len' ++ w.extractLsb' lo len = w.extractLsb' lo (len' + len) := by
  ext i hi
  simp only [BitVec.getElem_append, BitVec.getElem_extractLsb']
  split
  · rfl
  · rw [show lo + len + (i - len) = lo + i by omega]

section
variable (opc : Sel6) (rs rt rd : RegId) (shamt : Shamt) (funct : Sel6) (imm : Imm16) (addr : Addr26)

/-! ## R format -/

@[simp] theorem Field.opcode_encodeR : Field.opcode (encodeR opc rs rt rd shamt funct) = opc := by
  unfold Field.opcode encodeR
  rw [extract_append_high _ _ _ _ (by omega), extract_append_high _ _ _ _ (by omega), extract_append_high _ _ _ _ (by omega),
    extract_append_high _ _ _ _ (by omega), extract_append_high _ _ _ _ (by omega)]
  exact extract_whole _

@[simp] theorem Field.rs_encodeR : Field.rs (encodeR opc rs rt rd shamt funct) = rs := by
  unfold Field.rs encodeR
  rw [extract_append_high _ _ _ _ (by omega), extract_append_high _ _ _ _ (by omega), extract_append_high _ _ _ _ (by omega),
    extract_append_high _ _ _ _ (by omega), extract_append_low _ _ _ _ (by omega)]
  exact extract_whole _

@[simp] theorem Field.rt_encodeR : Field.rt (encodeR opc rs rt rd shamt funct) = rt := by
  unfold Field.rt encodeR
  rw [extract_append_high _ _ _ _ (by omega), extract_append_high _ _ _ _ (by omega), extract_append_high _ _ _ _ (by omega),
    extract_append_low _ _ _ _ (by omega)]
  exact extract_whole _

@[simp] theorem Field.rd_encodeR : Field.rd (encodeR opc rs rt rd shamt funct) = rd := by
  unfold Field.rd encodeR
  rw [extract_append_high _ _ _ _ (by omega), extract_append_high _ _ _ _ (by omega), extract_append_low _ _ _ _ (by omega)]
  exact extract_whole _

@[simp] theorem Field.shamt_encodeR : Field.shamt (encodeR opc rs rt rd shamt funct) = shamt := by
  unfold Field.shamt encodeR
  rw [extract_append_high _ _ _ _ (by omega), extract_append_low _ _ _ _ (by omega)]
  exact extract_whole _

@[simp] theorem Field.funct_encodeR : Field.funct (encodeR opc rs rt rd shamt funct) = funct := by
  unfold Field.funct encodeR
  rw [extract_append_low _ _ _ _ (by omega)]
  exact extract_whole _

/-- "`immediate` is `rd ++ shamt ++ funct`" (R91). -/
@[simp] theorem Field.imm_encodeR : Field.imm (encodeR opc rs rt rd shamt funct) = immOfFields rd shamt funct := by
  have h : ∀ w : Word, Field.imm w = immOfFields (Field.rd w) (Field.shamt w) (Field.funct w) := by
    intro w
    unfold Field.imm immOfFields Field.rd Field.shamt Field.funct
    rw [extract_append_extract w 6 5 5, extract_append_extract w 0 6 10]
  rw [h, Field.rd_encodeR, Field.shamt_encodeR, Field.funct_encodeR]

/-- "`address` is `rs ++ rt ++ immediate`" (R91), of every word. -/
theorem Field.addr_eq (w : Word) : Field.addr w = addrOfFields (Field.rs w) (Field.rt w) (Field.imm w) := by
  unfold Field.addr addrOfFields Field.rs Field.rt Field.imm
  rw [extract_append_extract w 16 5 5, extract_append_extract w 0 16 10]

@[simp] theorem Field.addr_encodeR :
    Field.addr (encodeR opc rs rt rd shamt funct) = addrOfFields rs rt (immOfFields rd shamt funct) := by
  rw [Field.addr_eq, Field.rs_encodeR, Field.rt_encodeR, Field.imm_encodeR]

/-! ## I format -/

@[simp] theorem Field.opcode_encodeI : Field.opcode (encodeI opc rs rt imm) = opc := by
  unfold Field.opcode encodeI
  rw [extract_append_high _ _ _ _ (by omega), extract_append_high _ _ _ _ (by omega), extract_append_high _ _ _ _ (by omega)]
  exact extract_whole _

@[simp] theorem Field.rs_encodeI : Field.rs (encodeI opc rs rt imm) = rs := by
  unfold Field.rs encodeI
  rw [extract_append_high _ _ _ _ (by omega), extract_append_high _ _ _ _ (by omega), extract_append_low _ _ _ _ (by omega)]
  exact extract_whole _

@[simp] theorem Field.rt_encodeI : Field.rt (encodeI opc rs rt imm) = rt := by
  unfold Field.rt encodeI
  rw [extract_append_high _ _ _ _ (by omega), extract_append_low _ _ _ _ (by omega)]
  exact extract_whole _

@[simp] theorem Field.imm_encodeI : Field.imm (encodeI opc rs rt imm) = imm := by
  unfold Field.imm encodeI
  rw [extract_append_low _ _ _ _ (by omega)]
  exact extract_whole _

@[simp] theorem Field.rd_encodeI : Field.rd (encodeI opc rs rt imm) = imm.extractLsb' 11 5 := by
  unfold Field.rd encodeI
  rw [extract_append_low _ _ _ _ (by omega)]

@[simp] theorem Field.shamt_encodeI : Field.shamt (encodeI opc rs rt imm) = imm.extractLsb' 6 5 := by
  unfold Field.shamt encodeI
  rw [extract_append_low _ _ _ _ (by omega)]

@[simp] theorem Field.addr_encodeI : Field.addr (encodeI opc rs rt imm) = addrOfFields rs rt imm := by
  rw [Field.addr_eq, Field.rs_encodeI, Field.rt_encodeI, Field.imm_encodeI]

/-! ## J format -/

@[simp] theorem Field.opcode_encodeJ : Field.opcode (encodeJ opc addr) = opc := by
  unfold Field.opcode encodeJ
  rw [extract_append_high _ _ _ _ (by omega)]
  exact extract_whole _

@[simp] theorem Field.addr_encodeJ : Field.addr (encodeJ opc addr) = addr := by
  unfold Field.addr encodeJ
  rw [extract_append_low _ _ _ _ (by omega)]
  exact extract_whole _

@[simp] theorem Field.rs_encodeJ : Field.rs (encodeJ opc addr) = addr.extractLsb' 21 5 := by
  unfold Field.rs encodeJ
  rw [extract_append_low _ _ _ _ (by omega)]

@[simp] theorem Field.rt_encodeJ : Field.rt (encodeJ opc addr) = addr.extractLsb' 16 5 := by
  unfold Field.rt encodeJ
  rw [extract_append_low _ _ _ _ (by omega)]

@[simp] theorem Field.rd_encodeJ : Field.rd (encodeJ opc addr) = addr.extractLsb' 11 5 := by
  unfold Field.rd encodeJ
  rw [extract_append_low _ _ _ _ (by omega)]

@[simp] theorem Field.shamt_encodeJ : Field.shamt (encodeJ opc addr) = addr.extractLsb' 6 5 := by
  unfold Field.shamt encodeJ
  rw [extract_append_low _ _ _ _ (by omega)]

@[simp] theorem Field.imm_encodeJ : Field.imm (encodeJ opc addr) = addr.extractLsb' 0 16 := by
  unfold Field.imm encodeJ
  rw [extract_append_low _ _ _ _ (by omega)]

end

namespace Machine

/-! ## What each format hands to Decode: the fields of its word (R92) -/

theorem wordSlot_encodeR (p : Params) (rs rt rd : RegId) (shamt : Shamt) (funct : Sel6) (c : Controls) :
    wordSlot p (encodeR p.opcRtype rs rt rd shamt funct) c = rSlot p funct rs rt rd shamt c := by
  simp only [wordSlot, rSlot, Field.rs_encodeR, Field.rt_encodeR, Field.rd_encodeR, Field.shamt_encodeR, Field.imm_encodeR,
    Field.addr_encodeR, Field.opcode_encodeR]

theorem wordSlot_encodeI (p : Params) (opc : Sel6) (rs rt : RegId) (imm : Imm16) (c : Controls) :
    wordSlot p (encodeI opc rs rt imm) c = iSlot p opc rs rt imm c := by
  simp only [wordSlot, iSlot, Field.rs_encodeI, Field.rt_encodeI, Field.rd_encodeI, Field.shamt_encodeI, Field.imm_encodeI,
    Field.addr_encodeI, Field.opcode_encodeI]

theorem wordSlot_encodeJ (p : Params) (opc : Sel6) (addr : Addr26) (c : Controls) :
    wordSlot p (encodeJ opc addr) c = jSlot p opc addr c := by
  simp only [wordSlot, jSlot, Field.rs_encodeJ, Field.rt_encodeJ, Field.rd_encodeJ, Field.shamt_encodeJ, Field.imm_encodeJ,
    Field.addr_encodeJ, Field.opcode_encodeJ]

@[simp] theorem wordSlot_rs (p : Params) (w : Word) (c : Controls) : (wordSlot p w c).rs = Field.rs w := rfl
@[simp] theorem wordSlot_rt (p : Params) (w : Word) (c : Controls) : (wordSlot p w c).rt = Field.rt w := rfl
@[simp] theorem wordSlot_rd (p : Params) (w : Word) (c : Controls) : (wordSlot p w c).rd = Field.rd w := rfl
@[simp] theorem wordSlot_ctl (p : Params) (w : Word) (c : Controls) : (wordSlot p w c).ctl = c := rfl
@[simp] theorem wordSlot_addr (p : Params) (w : Word) (c : Controls) : (wordSlot p w c).addr = Field.addr w := rfl

/-- Under the default ALU_IMM_EXT every staged immediate is sign-extended (R94). -/
@[simp] theorem wordSlot_imm (w : Word) (c : Controls) : (wordSlot params w c).imm = (Field.imm w).signExtend 32 := by
  exact ite_self ((Field.imm w).signExtend 32)

/-- The row of the control table an instruction's meaning uses (R98). -/
def rowOf : Instr → Controls
  | .add .. => Row.add
  | .sub .. => Row.sub
  | .and .. => Row.and
  | .or .. => Row.or
  | .nor .. => Row.nor
  | .slt .. => Row.slt
  | .jr .. => Row.jr
  | .addi .. => Row.addi
  | .slti .. => Row.slti
  | .andi .. => Row.andi
  | .ori .. => Row.ori
  | .beq .. => Row.beq
  | .bne .. => Row.bne
  | .lw .. => Row.lw
  | .sw .. => Row.sw
  | .j .. => Row.j
  | .halt .. => Row.halt

theorem rowOf_mem (i : Instr) : rowOf i ∈ controlRows := by
  cases i <;> simp [rowOf, controlRows]

/-- Every meaning is the clock cycle of the instruction's word with its row's signals: what provers cite instead of unfolding the
seventeen meanings. -/
theorem execWith_eq (p : Params) (i : Instr) (s : State) :
    execWith p i s = clockCycle (wordSlot p (encodeWith p i) (rowOf i)) s := by
  cases i <;> simp only [execWith, encodeWith, wordSlot_encodeR, wordSlot_encodeI, wordSlot_encodeJ] <;> rfl

/-- The meanings are the parametric ones at the default parameters. -/
theorem exec_eq_execWith (i : Instr) (s : State) : exec i s = execWith params i s := by
  cases i <;> rfl

/-- The same for the dispatch at the default parameters. -/
theorem exec_eq (i : Instr) (s : State) : exec i s = clockCycle (wordSlot params (encode i) (rowOf i)) s :=
  (exec_eq_execWith i s).trans (execWith_eq params i s)

/-- The step is the parametric one at the default parameters. -/
theorem step_eq_stepWith (s : State) : step s = stepWith params s := by
  unfold step stepWith State.instrInDecode
  cases s.instrInDecodeWith params with
  | none => rfl
  | some i => exact exec_eq_execWith i s

end Machine

end Sys2Proof
end

