-- ==== Sys2Proof/Laws/Memory.lean ====
section
/-! SUPPORT. The memory: read after write byte by byte and word by word, and the canonical form kept by every operation. -/

namespace Sys2Proof.Machine

/-! ## One byte -/

theorem lookupByte_of_lt {l : List Host.Cell} {a : Nat} (h : ∀ c ∈ l, a < c.1) : lookupByte l a = unlistedByte := by
  induction l with
  | nil => rfl
  | cons c l ih =>
    have hc := h c (by simp)
    simp only [lookupByte]
    rw [if_neg (by omega)]
    exact ih fun d hd => h d (by simp [hd])

/-- The canonical form of a list of cells, without the image's bound. -/
def Canonical (l : List Host.Cell) : Prop := l.Pairwise (fun c d => c.1 < d.1) ∧ ∀ c ∈ l, c.2 ≠ unlistedByte

theorem Canonical.tail {c : Host.Cell} {l : List Host.Cell} (h : Canonical (c :: l)) : Canonical l :=
  ⟨(List.pairwise_cons.mp h.1).2, fun d hd => h.2 d (by simp [hd])⟩

/-- Read after write of one byte, on a canonical list. -/
theorem lookupByte_putByte {l : List Host.Cell} (hl : Canonical l) (a : Nat) (b : Byte) (q : Nat) :
    lookupByte (putByte a b l) q = if q = a then b else lookupByte l q := by
  induction l with
  | nil =>
    simp only [putByte]
    split <;> rename_i hb
    · by_cases hq : q = a <;> simp [lookupByte, hq, hb]
    · by_cases hq : q = a
      · simp [lookupByte, hq]
      · simp [lookupByte, hq, Ne.symm hq]
  | cons c l ih =>
    obtain ⟨k, v⟩ := c
    have hlt : ∀ d ∈ l, k < d.1 := (List.pairwise_cons.mp hl.1).1
    have htail := ih hl.tail
    simp only [putByte]
    split <;> rename_i h1
    · split <;> rename_i hb
      · by_cases hq : q = a
        · subst hq
          rw [lookupByte_of_lt (by
            intro d hd
            rcases List.mem_cons.mp hd with rfl | hd
            · exact h1
            · have := hlt d hd
              omega)]
          simp [hb]
        · simp [hq]
      · by_cases hq : q = a
        · simp [lookupByte, hq]
        · simp [lookupByte, hq, Ne.symm hq]
    · split <;> rename_i h2
      · subst h2
        split <;> rename_i hb
        · by_cases hq : q = a
          · subst hq
            rw [lookupByte_of_lt hlt]
            simp [hb]
          · simp [lookupByte, hq, Ne.symm hq]
        · by_cases hq : q = a
          · simp [lookupByte, hq]
          · simp [lookupByte, hq, Ne.symm hq]
      · simp only [lookupByte, htail]
        by_cases hk : k = q
        · subst hk
          simp [Ne.symm h2]
        · simp [hk]

/-- The cells after a write are the old ones or the one written. -/
theorem mem_putByte {l : List Host.Cell} {a : Nat} {b : Byte} {c : Host.Cell} (h : c ∈ putByte a b l) :
    c ∈ l ∨ (c = (a, b) ∧ b ≠ unlistedByte) := by
  induction l with
  | nil =>
    simp only [putByte] at h
    split at h <;> simp_all
  | cons d l ih =>
    obtain ⟨k, v⟩ := d
    simp only [putByte] at h
    split at h
    · split at h
      · exact .inl h
      · rcases List.mem_cons.mp h with rfl | h
        · exact .inr ⟨rfl, ‹_›⟩
        · exact .inl h
    · split at h
      · split at h
        · exact .inl (by simp [h])
        · rcases List.mem_cons.mp h with rfl | h
          · exact .inr ⟨rfl, ‹_›⟩
          · exact .inl (by simp [h])
      · rcases List.mem_cons.mp h with rfl | h
        · exact .inl (by simp)
        · rcases ih h with h | h
          · exact .inl (by simp [h])
          · exact .inr h

theorem Canonical.putByte {l : List Host.Cell} (hl : Canonical l) (a : Nat) (b : Byte) : Canonical (putByte a b l) := by
  refine ⟨?_, fun c hc => ?_⟩
  · induction l with
    | nil =>
      simp only [Machine.putByte]
      split <;> simp
    | cons d l ih =>
      obtain ⟨k, v⟩ := d
      have hlt : ∀ e ∈ l, k < e.1 := (List.pairwise_cons.mp hl.1).1
      have hpw := (List.pairwise_cons.mp hl.1).2
      simp only [Machine.putByte]
      split <;> rename_i h1
      · split
        · exact hl.1
        · refine List.pairwise_cons.mpr ⟨fun e he => ?_, hl.1⟩
          rcases List.mem_cons.mp he with rfl | he
          · exact h1
          · have := hlt e he
            simp only
            omega
      · split <;> rename_i h2
        · subst h2
          split
          · exact hpw
          · exact List.pairwise_cons.mpr ⟨hlt, hpw⟩
        · refine List.pairwise_cons.mpr ⟨fun e he => ?_, ih hl.tail⟩
          rcases mem_putByte he with he | ⟨rfl, -⟩
          · exact hlt e he
          · simp only
            omega
  · rcases mem_putByte hc with h | ⟨rfl, hb⟩
    · exact hl.2 c h
    · exact hb

theorem Memory.wf.canonical {m : Memory} (h : m.wf) : Canonical m.cells := ⟨h.1, fun c hc => (h.2 c hc).1⟩

/-! ## One word -/

/-- Every byte of the memory after a word is stored. -/
theorem Memory.byteAt_setWord {m : Memory} (h : m.wf) (k : Nat) (v : Word) (a : Nat) :
    (m.setWord k v).byteAt a =
      if a = 4 * k then v.extractLsb' 0 8 else if a = 4 * k + 1 then v.extractLsb' 8 8
      else if a = 4 * k + 2 then v.extractLsb' 16 8 else if a = 4 * k + 3 then v.extractLsb' 24 8 else m.byteAt a := by
  have c3 := h.canonical.putByte (4 * k + 3) (v.extractLsb' 24 8)
  have c2 := c3.putByte (4 * k + 2) (v.extractLsb' 16 8)
  have c1 := c2.putByte (4 * k + 1) (v.extractLsb' 8 8)
  simp only [Memory.byteAt, Memory.setWord]
  rw [lookupByte_putByte c1, lookupByte_putByte c2, lookupByte_putByte c3, lookupByte_putByte h.canonical]

/-- A byte at another address, whatever the list. -/
theorem lookupByte_putByte_ne (a : Nat) (b : Byte) (l : List Host.Cell) {q : Nat} (h : q ≠ a) :
    lookupByte (putByte a b l) q = lookupByte l q := by
  induction l with
  | nil =>
    simp only [putByte]
    split <;> simp [lookupByte, h.symm]
  | cons c l ih =>
    obtain ⟨k, v⟩ := c
    simp only [putByte]
    split
    · split <;> simp [lookupByte, h.symm]
    · split <;> rename_i h2
      · subst h2
        split <;> simp [lookupByte, h.symm]
      · simp [lookupByte, ih]

/-- A byte outside the word stored to; the memory need not be in canonical form. -/
theorem Memory.byteAt_setWord_ne {m : Memory} {k a : Nat} (v : Word) (ha : a / 4 ≠ k) :
    (m.setWord k v).byteAt a = m.byteAt a := by
  simp only [Memory.byteAt, Memory.setWord]
  rw [lookupByte_putByte_ne, lookupByte_putByte_ne, lookupByte_putByte_ne, lookupByte_putByte_ne] <;> omega

/-- The four bytes of a word put together are the word (R64). -/
theorem wordOfBytes_extract (v : Word) :
    wordOfBytes (v.extractLsb' 0 8) (v.extractLsb' 8 8) (v.extractLsb' 16 8) (v.extractLsb' 24 8) = v := by
  unfold wordOfBytes
  ext i hi
  simp only [BitVec.getElem_append, BitVec.getElem_extractLsb']
  split
  · simp only [BitVec.getLsbD_eq_getElem hi, Nat.zero_add]
  · split
    · rw [show 8 + (i - 8) = i by omega, BitVec.getLsbD_eq_getElem hi]
    · split
      · rw [show 16 + (i - 8 - 8) = i by omega, BitVec.getLsbD_eq_getElem hi]
      · rw [show 24 + (i - 8 - 8 - 8) = i by omega, BitVec.getLsbD_eq_getElem hi]

/-- Read after write, by word index. -/
theorem Memory.wordAt_setWord {m : Memory} (h : m.wf) (k q : Nat) (v : Word) :
    (m.setWord k v).wordAt q = if q = k then v else m.wordAt q := by
  by_cases hq : q = k
  · subst hq
    simp only [Memory.wordAt, Memory.byteAt_setWord h, if_true]
    rw [if_neg (by omega), if_neg (by omega), if_neg (by omega), if_neg (by omega), if_neg (by omega), if_neg (by omega)]
    exact wordOfBytes_extract v
  · simp only [hq, if_false, Memory.wordAt]
    rw [Memory.byteAt_setWord_ne, Memory.byteAt_setWord_ne, Memory.byteAt_setWord_ne, Memory.byteAt_setWord_ne]
    all_goals omega

/-- Storing a word inside the image keeps the canonical form. -/
theorem Memory.wf.setWord {m : Memory} (h : m.wf) {k : Nat} (v : Word) (hk : k < m.words) : (m.setWord k v).wf := by
  have hc := (((h.canonical.putByte (4 * k + 3) (v.extractLsb' 24 8)).putByte (4 * k + 2) (v.extractLsb' 16 8)).putByte
    (4 * k + 1) (v.extractLsb' 8 8)).putByte (4 * k) (v.extractLsb' 0 8)
  refine ⟨hc.1, fun c hc' => ⟨hc.2 c hc', ?_⟩⟩
  show c.1 < 4 * m.words
  rcases mem_putByte hc' with hc' | ⟨rfl, -⟩
  · rcases mem_putByte hc' with hc' | ⟨rfl, -⟩
    · rcases mem_putByte hc' with hc' | ⟨rfl, -⟩
      · rcases mem_putByte hc' with hc' | ⟨rfl, -⟩
        · exact (h.2 c hc').2
        · simp only
          omega
      · simp only
        omega
    · simp only
      omega
  · simp only
    omega

/-- `MemWrite` keeps the canonical form. -/
theorem Memory.wf.write {m m' : Memory} (h : m.wf) {a v : Word} (hw : m.write a v = some m') : m'.wf := by
  unfold Memory.write at hw
  split at hw
  · rename_i hb
    obtain rfl := Option.some.inj hw
    exact h.setWord v hb
  · cases hw

/-- Growing the image keeps the canonical form. -/
theorem Memory.wf.growTo {m : Memory} (h : m.wf) (n : Nat) : (m.growTo n).wf := by
  refine ⟨h.1, fun c hc => ⟨(h.2 c hc).1, ?_⟩⟩
  have := (h.2 c hc).2
  simp only [Memory.growTo_words]
  omega

theorem imageCells_bound {bytes : List Byte} {a : Nat} {c : Host.Cell} (h : c ∈ imageCells a bytes) :
    a ≤ c.1 ∧ c.1 < a + bytes.length ∧ c.2 ≠ unlistedByte := by
  induction bytes generalizing a with
  | nil => simp [imageCells] at h
  | cons b rest ih =>
    simp only [imageCells] at h
    split at h <;> rename_i hb
    · have := ih h
      simp only [List.length_cons]
      exact ⟨by omega, by omega, this.2.2⟩
    · rcases List.mem_cons.mp h with rfl | h
      · exact ⟨Nat.le_refl _, by simp, hb⟩
      · have := ih h
        simp only [List.length_cons]
        exact ⟨by omega, by omega, this.2.2⟩

theorem imageCells_pairwise (bytes : List Byte) (a : Nat) : (imageCells a bytes).Pairwise (fun c d => c.1 < d.1) := by
  induction bytes generalizing a with
  | nil => simp [imageCells]
  | cons b rest ih =>
    simp only [imageCells]
    split
    · exact ih _
    · refine List.pairwise_cons.mpr ⟨fun c hc => ?_, ih _⟩
      have := (imageCells_bound hc).1
      simp only
      omega

/-- A loaded image is in canonical form (R64, R66). -/
theorem loadImage_wf (bytes : List Byte) : (loadImage bytes).wf := by
  refine ⟨imageCells_pairwise _ _, fun c hc => ?_⟩
  have := imageCells_bound hc
  refine ⟨this.2.2, ?_⟩
  have h2 := this.2.1
  simp only [List.length_take] at h2
  show c.1 < 4 * (bytes.length / 4)
  omega

/-- So does the host's placement of a word. -/
theorem State.placeWord_mem_wf {s : State} (h : s.mem.wf) (w : Word) : (s.placeWord w).mem.wf :=
  (h.growTo _).setWord w (by rw [Memory.growTo_words]; omega)

/-! ## The accesses of a cycle -/

theorem Memory.read_eq_some {m : Memory} {a v : Word} : m.read a = some v ↔ m.inBounds a ∧ m.wordAt (wordIndex a) = v := by
  unfold Memory.read
  split <;> simp_all

theorem Memory.read_eq_none {m : Memory} {a : Word} : m.read a = none ↔ ¬ m.inBounds a := by
  unfold Memory.read
  split <;> simp_all

theorem Memory.write_eq_some {m m' : Memory} {a v : Word} :
    m.write a v = some m' ↔ m.inBounds a ∧ m.setWord (wordIndex a) v = m' := by
  unfold Memory.write
  split <;> simp_all

theorem Memory.write_eq_none {m : Memory} {a v : Word} : m.write a v = none ↔ ¬ m.inBounds a := by
  unfold Memory.write
  split <;> simp_all

theorem State.memAfter_words (s : State) : s.memAfter.words = s.mem.words := by
  unfold State.memAfter
  split <;> rfl

end Sys2Proof.Machine
end

