-- ==== Sys2Proof/Laws/Registers.lean ====
section
/-! SUPPORT. The general registers: read after write, and what Writeback's commit does (10_state.md rules R23 to R25). -/

namespace Sys2Proof.Machine

theorem RegFile.read_put (x : RegFile) (r q : RegId) (v : Word) :
    RegFile.read (RegFile.put x r v) q = if q = r then v else RegFile.read x q := by
  unfold RegFile.read RegFile.put
  rw [Vector.getElem_set]
  by_cases h : q = r
  · simp [h]
  · have : r.toNat ≠ q.toNat := fun e => h (BitVec.eq_of_toNat_eq e.symm)
    simp [h, this]

/-- A commit writes its destination, unless that is register 0, and no other register (R24, R160). -/
theorem RegFile.read_commit (x : RegFile) (d q : RegId) (v : Word) :
    RegFile.read (RegFile.commit x d v) q = if q = d ∧ d ≠ 0 then v else RegFile.read x q := by
  unfold RegFile.commit
  by_cases h : d = 0
  · rw [if_pos h, if_neg (fun e => e.2 h)]
  · rw [if_neg h, RegFile.read_put]
    exact if_congr (by simp only [ne_eq, h, not_false_eq_true, and_true]) rfl rfl

/-- When a slot supplies a register (R151). -/
theorem Slot.supplies_iff {l : Slot} {r : RegId} :
    l.supplies r = true ↔ l.ctl.regWrite = true ∧ l.dest ≠ 0 ∧ l.dest = r := by
  simp only [Slot.supplies, Bool.and_eq_true, bne_iff_ne, beq_iff_eq, and_assoc]

/-- Everything Writeback can do (R160): the register MEM/WB supplies gets MEM/WB's value, every other is kept. -/
theorem State.read_regsAfterWriteback (s : State) (q : RegId) :
    RegFile.read s.regsAfterWriteback q = if s.memwb.supplies q then s.memwb.value else RegFile.read s.regs q := by
  unfold State.regsAfterWriteback
  by_cases h : s.memwb.ctl.regWrite = true
  · rw [if_pos h, RegFile.read_commit]
    exact if_congr (by rw [Slot.supplies_iff]; exact ⟨fun e => ⟨h, e.2, e.1.symm⟩, fun e => ⟨e.2.2.symm, e.2.1⟩⟩) rfl rfl
  · rw [if_neg h, if_neg (fun e => h (Slot.supplies_iff.mp e).1)]

/-- The forwarding logic never serves register 0 (R151). -/
@[simp] theorem Slot.supplies_zero (l : Slot) : l.supplies 0#5 = false := by
  rw [← Bool.not_eq_true, Slot.supplies_iff]
  exact fun h => h.2.1 h.2.2

/-- So a reader of register 0 keeps what Decode read. -/
@[simp] theorem forward_zero (exmem : ExMem) (memwb : MemWb) (raw : Word) : forward exmem memwb 0#5 raw = raw := by
  simp [forward]

/-- A slot that writes no register supplies none. -/
theorem Slot.supplies_of_not_regWrite (l : Slot) (r : RegId) (h : l.ctl.regWrite = false) : l.supplies r = false := by
  simp [Slot.supplies, h]

end Sys2Proof.Machine
end

