-- ==== Sys2Proof/Laws/Cycle.lean ====
section
/-! SUPPORT. What a clock cycle can do, said once: its Fatal conditions, and its next state as `advance`. -/

namespace Sys2Proof.Machine

/-! ## The accesses -/

theorem State.read_fetched {s : State} (h : s.FetchOk) : s.mem.read s.pc = some s.fetched := if_pos h

theorem State.loadResult_ok {s : State} (h : s.DataOk) : s.loadResult = .ok s.memResultAfter := by
  unfold State.loadResult State.memResultAfter
  split <;> rename_i hr
  · rw [show s.mem.read s.exmem.aluResult = _ from if_pos (h (.inl hr))]
  · rfl

theorem State.storeResult_ok {s : State} (h : s.DataOk) : s.storeResult = .ok s.memAfter := by
  unfold State.storeResult State.memAfter
  split <;> rename_i hw
  · rw [show s.mem.write s.exmem.aluResult s.exmem.writeData = _ from if_pos (h (.inr hw))]
  · rfl

theorem State.dataOk_of_results {s : State} {v : Word} {m : Memory} (hl : s.loadResult = .ok v) (hs : s.storeResult = .ok m) :
    s.DataOk := by
  rintro (h | h)
  · unfold State.loadResult at hl
    rw [if_pos h] at hl
    by_contra hb
    rw [Memory.read_eq_none.mpr hb] at hl
    cases hl
  · unfold State.storeResult at hs
    rw [if_pos h] at hs
    by_contra hb
    rw [Memory.write_eq_none.mpr hb] at hs
    cases hs

/-! ## The cycle -/

/-- A cycle whose accesses are inside the image ends as Decode's response says. -/
theorem clockCycle_of_ok {d : Slot} {s : State} (hf : s.FetchOk) (hd : s.DataOk) :
    clockCycle d s =
      match resolve d s.regsAfterWriteback s s.fetched with
      | .error f => .fault f
      | .ok front => .next (s.advance front.pc front.ifid front.idex) := by
  unfold clockCycle
  rw [State.read_fetched hf, State.loadResult_ok hd, State.storeResult_ok hd]
  rfl

/-- Everything a cycle that answers a next state has done. -/
theorem clockCycle_next {d : Slot} {s t : State} (h : clockCycle d s = .next t) :
    s.FetchOk ∧ s.DataOk ∧
      ∃ front, resolve d s.regsAfterWriteback s s.fetched = .ok front ∧ t = s.advance front.pc front.ifid front.idex := by
  have hf : s.FetchOk := by
    by_contra hb
    rw [clockCycle, Memory.read_eq_none.mpr hb] at h
    cases h
  have hd : s.DataOk := by
    rw [clockCycle, State.read_fetched hf] at h
    dsimp only at h
    split at h
    · cases h
    · split at h
      · cases h
      · split at h
        · cases h
        · exact State.dataOk_of_results ‹_› ‹_›
  refine ⟨hf, hd, ?_⟩
  rw [clockCycle_of_ok hf hd] at h
  split at h <;> rename_i hr
  · cases h
  · exact ⟨_, hr, by injection h with h; exact h.symm⟩

/-! ## The load-use check (R142) -/

/-- The function the cycle computes with is the written-out condition. -/
theorem State.loadUse_iff {s : State} {rs rt : RegId} : s.LoadUse rs rt ↔ hazard s.idex rs rt = true := by
  simp only [State.LoadUse, hazard, Bool.and_eq_true, Bool.or_eq_true, beq_iff_eq]

theorem State.not_loadUse_iff {s : State} {rs rt : RegId} : ¬ s.LoadUse rs rt ↔ hazard s.idex rs rt = false := by
  rw [State.loadUse_iff, Bool.not_eq_true]

theorem State.stalls_iff {s : State} {w : Word} : s.Stalls w ↔ hazard s.idex (Field.rs w) (Field.rt w) = true :=
  State.loadUse_iff

theorem State.not_stalls_iff {s : State} {w : Word} : ¬ s.Stalls w ↔ hazard s.idex (Field.rs w) (Field.rt w) = false :=
  State.not_loadUse_iff

/-- A slot that reads no memory holds nothing off; a bubble is one. -/
theorem hazard_of_not_memRead {e : IdEx} (h : e.ctl.memRead = false) (rs rt : RegId) : hazard e rs rt = false := by
  rw [hazard, h, Bool.false_and]

/-! ## Decode's response (R141): one lemma per case -/

variable {d : Slot} {x : RegFile} {s : State} {w : Word}

theorem resolve_stall (h : hazard s.idex d.rs d.rt = true) : resolve d x s w = .ok ⟨s.pc, s.ifid, IdEx.zero⟩ := if_pos h

theorem resolve_branch (h : hazard s.idex d.rs d.rt = false)
    (hb : (d.ctl.branch && branchTaken d.ctl (RegFile.read x d.rs) (RegFile.read x d.rt)) = true) :
    resolve d x s w = .ok ⟨branchTarget s.ifid.pc d.imm, IfId.zero, d.toIdEx x⟩ := by
  unfold resolve
  rw [h, hb]
  rfl

theorem resolve_sequel (h : hazard s.idex d.rs d.rt = false)
    (hb : (d.ctl.branch && branchTaken d.ctl (RegFile.read x d.rs) (RegFile.read x d.rt)) = false) (hj : d.ctl.jump = false) :
    resolve d x s w = .ok ⟨fetchPc s.pc w, fetchIfId s.pc w, d.toIdEx x⟩ := by
  unfold resolve
  rw [h, hb, hj]
  rfl

/-- Everything Decode's response can be. -/
theorem resolve_cases {front : FrontEnd} (h : resolve d x s w = .ok front) :
    (hazard s.idex d.rs d.rt = true ∧ front = ⟨s.pc, s.ifid, IdEx.zero⟩) ∨
    (hazard s.idex d.rs d.rt = false ∧ d.ctl.branch = true ∧
      branchTaken d.ctl (RegFile.read x d.rs) (RegFile.read x d.rt) = true ∧
      front = ⟨branchTarget s.ifid.pc d.imm, IfId.zero, d.toIdEx x⟩) ∨
    (hazard s.idex d.rs d.rt = false ∧ d.ctl.jump = true ∧ d.ctl.jumpSrc = true ∧
      misaligned (RegFile.read x d.rs) = false ∧ front = ⟨RegFile.read x d.rs, IfId.zero, d.toIdEx x⟩) ∨
    (hazard s.idex d.rs d.rt = false ∧ d.ctl.jump = true ∧ d.ctl.jumpSrc = false ∧
      front = ⟨jumpTarget d.addr, IfId.zero, d.toIdEx x⟩) ∨
    (hazard s.idex d.rs d.rt = false ∧ d.ctl.jump = false ∧
      (d.ctl.branch && branchTaken d.ctl (RegFile.read x d.rs) (RegFile.read x d.rt)) = false ∧
      front = ⟨fetchPc s.pc w, fetchIfId s.pc w, d.toIdEx x⟩) := by
  unfold resolve at h
  by_cases hz : hazard s.idex d.rs d.rt = true
  · rw [if_pos hz] at h
    exact .inl ⟨hz, by injection h with h; exact h.symm⟩
  rw [if_neg hz] at h
  rw [Bool.not_eq_true] at hz
  by_cases hb : (d.ctl.branch && branchTaken d.ctl (RegFile.read x d.rs) (RegFile.read x d.rt)) = true
  · rw [if_pos hb] at h
    rw [Bool.and_eq_true] at hb
    exact .inr (.inl ⟨hz, hb.1, hb.2, by injection h with h; exact h.symm⟩)
  rw [if_neg hb] at h
  rw [Bool.not_eq_true] at hb
  by_cases hj : d.ctl.jump = true
  · rw [if_pos hj] at h
    by_cases hs : d.ctl.jumpSrc = true
    · rw [if_pos hs] at h
      by_cases hm : misaligned (RegFile.read x d.rs) = true
      · rw [if_pos hm] at h
        cases h
      · rw [if_neg hm] at h
        rw [Bool.not_eq_true] at hm
        exact .inr (.inr (.inl ⟨hz, hj, hs, hm, by injection h with h; exact h.symm⟩))
    · rw [if_neg hs] at h
      rw [Bool.not_eq_true] at hs
      exact .inr (.inr (.inr (.inl ⟨hz, hj, hs, by injection h with h; exact h.symm⟩)))
  · rw [if_neg hj] at h
    rw [Bool.not_eq_true] at hj
    exact .inr (.inr (.inr (.inr ⟨hz, hj, hb, by injection h with h; exact h.symm⟩)))

/-- The instruction in Decode, by its word. -/
theorem State.instrInDecodeWith_eq_some {p : Params} {s : State} {i : Instr} :
    s.instrInDecodeWith p = some i ↔ s.ifid.valid = true ∧ decodeWith p s.ifid.instr = .ok i := by
  unfold State.instrInDecodeWith
  cases s.ifid.valid with
  | false => simp
  | true => cases decodeWith p s.ifid.instr <;> simp

theorem State.instrInDecode_eq_some {s : State} {i : Instr} :
    s.instrInDecode = some i ↔ s.ifid.valid = true ∧ decode s.ifid.instr = .ok i :=
  State.instrInDecodeWith_eq_some

/-- With no instruction in Decode a step is the cycle of the bare word. -/
theorem stepWith_of_none {p : Params} {s : State} (h : s.instrInDecodeWith p = none) :
    stepWith p s = clockCycle (wordSlot p s.ifid.instr Controls.zero) s := by
  rw [stepWith, h]
  rfl

theorem step_of_none {s : State} (h : s.instrInDecode = none) :
    step s = clockCycle (wordSlot params s.ifid.instr Controls.zero) s :=
  (step_eq_stepWith s).trans (stepWith_of_none h)

/-- With an instruction in Decode a step is the cycle of its word with its row's signals. -/
theorem stepWith_of_some {p : Params} {s : State} {i : Instr} (h : s.instrInDecodeWith p = some i) :
    stepWith p s = clockCycle (wordSlot p (encodeWith p i) (rowOf i)) s := by
  rw [stepWith, h]
  exact execWith_eq p i s

theorem step_of_some {s : State} {i : Instr} (h : s.instrInDecode = some i) :
    step s = clockCycle (wordSlot params (encode i) (rowOf i)) s :=
  (step_eq_stepWith s).trans (stepWith_of_some h)

/-- Whatever is in Decode, a step is the cycle of some word with the signals of a row of the control table. -/
theorem step_slot (s : State) : ∃ c ∈ controlRows, ∃ w, step s = clockCycle (wordSlot params w c) s := by
  cases h : s.instrInDecode with
  | none => exact ⟨Controls.zero, by simp [controlRows], s.ifid.instr, step_of_none h⟩
  | some i => exact ⟨rowOf i, rowOf_mem i, encode i, step_of_some h⟩

/-- Everything a step that answers a next state has done behind Decode. -/
theorem step_advance {s t : State} (h : step s = .next t) :
    s.FetchOk ∧ s.DataOk ∧ ∃ pc ifid idex, t = s.advance pc ifid idex := by
  obtain ⟨c, -, w, hw⟩ := step_slot s
  obtain ⟨hf, hd, front, -, ht⟩ := clockCycle_next (hw ▸ h)
  exact ⟨hf, hd, _, _, _, ht⟩

/-- What holds of every row of the control table: a load is told by either of its two signals, its destination is `rt`, and it
does not store, branch, jump or halt. -/
theorem controlRows_facts : ∀ c ∈ controlRows,
    c.memToReg = c.memRead ∧
    (c.memRead = true → c.regWrite = true ∧ c.regDst = false ∧ c.memWrite = false ∧ c.branch = false ∧ c.jump = false ∧
      c.halt = false) := by
  decide

/-- A load in ID/EX supplies no register that a word in Decode names, unless it holds the word off (R46 (c), R142). -/
theorem State.load_supplies_none {s : State} {rs rt : RegId} (hrow : s.idex.ctl ∈ controlRows) (h : ¬ s.LoadUse rs rt)
    (hl : s.idex.ctl.memToReg = true) : s.idex.supplies rs = false ∧ s.idex.supplies rt = false := by
  obtain ⟨hm, hf⟩ := controlRows_facts _ hrow
  rw [hm] at hl
  have hdest : s.idex.dest = s.idex.rt := by rw [Slot.dest, (hf hl).2.1]; rfl
  constructor <;> rw [← Bool.not_eq_true, Slot.supplies_iff, hdest] <;> rintro ⟨-, -, e⟩
  · exact h ⟨hl, .inl e⟩
  · exact h ⟨hl, .inr e⟩

/-- The memory at the end of a cycle whose accesses are inside the image keeps the canonical form. -/
theorem State.memAfter_wf {s : State} (h : s.mem.wf) (hd : s.DataOk) : s.memAfter.wf := by
  unfold State.memAfter
  split <;> rename_i hw
  · exact h.setWord _ (hd (.inr hw))
  · exact h

/-! ## The ports (70_reset_and_hazards.md rule R365) -/

/-- The write that the outputs ask for is the cycle's store. -/
@[simp] theorem Memory.accept_ports (s : State) : s.mem.accept s.ports = s.memAfter := rfl

/-- While reset is asserted the core is at its reset state (R340). -/
theorem portCycle_of_reset {p : Params} {i : Inputs} (s : State) (h : i.reset = true) : portCycle p i s = .next s.resetCore :=
  if_pos h

end Sys2Proof.Machine
end

