-- ==== Sys2Proof/Laws/PerInstr.lean ====
section
/-! SUPPORT. One family of statements made per instruction: the word of an instruction has the bits that its format and its row
of the selector table fix (30_encoding.md rules R91, R97). -/

namespace Sys2Proof.Laws.Selector

/-- The opcode of an instruction's row (R97), under the default numbers. -/
def opcodeOf : Instr → Sel6
  | .add .. => 0x00
  | .sub .. => 0x00
  | .and .. => 0x00
  | .or .. => 0x00
  | .nor .. => 0x00
  | .slt .. => 0x00
  | .jr .. => 0x00
  | .addi .. => 0x08
  | .slti .. => 0x0A
  | .andi .. => 0x0C
  | .ori .. => 0x0D
  | .beq .. => 0x04
  | .bne .. => 0x05
  | .lw .. => 0x23
  | .sw .. => 0x2B
  | .j .. => 0x02
  | .halt .. => 0x3F

/-- The function code of an R-format row (R97). -/
def functOf : Instr → Option Sel6
  | .add .. => some 0x20
  | .sub .. => some 0x22
  | .and .. => some 0x24
  | .or .. => some 0x25
  | .nor .. => some 0x27
  | .slt .. => some 0x2A
  | .jr .. => some 0x08
  | .addi .. => none
  | .slti .. => none
  | .andi .. => none
  | .ori .. => none
  | .beq .. => none
  | .bne .. => none
  | .lw .. => none
  | .sw .. => none
  | .j .. => none
  | .halt .. => none

/-- The word's opcode field is the row's opcode, and its function-code field the row's function code where the row has one. -/
def Statement (i : Instr) : Prop :=
  Field.opcode (encode i) = opcodeOf i ∧ ∀ f ∈ functOf i, Field.funct (encode i) = f

variable (rs rt rd : RegId) (shamt : Shamt) (imm : Imm16) (a : Addr26)

theorem ofR (funct : Sel6) (i : Instr) (h : encode i = encodeR 0x00 rs rt rd shamt funct) (ho : opcodeOf i = 0x00)
    (hf : functOf i = some funct) : Statement i := by
  refine ⟨by rw [h, ho, Field.opcode_encodeR], fun f hm => ?_⟩
  rw [hf, Option.mem_some_iff] at hm
  rw [h, Field.funct_encodeR, hm]

theorem ofI (i : Instr) (opc : Sel6) (h : encode i = encodeI opc rs rt imm) (ho : opcodeOf i = opc) (hf : functOf i = none) :
    Statement i := by
  refine ⟨by rw [h, ho, Field.opcode_encodeI], fun f hm => ?_⟩
  rw [hf] at hm
  cases hm

theorem ofJ (i : Instr) (opc : Sel6) (h : encode i = encodeJ opc a) (ho : opcodeOf i = opc) (hf : functOf i = none) :
    Statement i := by
  refine ⟨by rw [h, ho, Field.opcode_encodeJ], fun f hm => ?_⟩
  rw [hf] at hm
  cases hm

theorem add : Statement (.add rs rt rd shamt) := ofR rs rt rd shamt 0x20 _ rfl rfl rfl
theorem sub : Statement (.sub rs rt rd shamt) := ofR rs rt rd shamt 0x22 _ rfl rfl rfl
theorem and : Statement (.and rs rt rd shamt) := ofR rs rt rd shamt 0x24 _ rfl rfl rfl
theorem or : Statement (.or rs rt rd shamt) := ofR rs rt rd shamt 0x25 _ rfl rfl rfl
theorem nor : Statement (.nor rs rt rd shamt) := ofR rs rt rd shamt 0x27 _ rfl rfl rfl
theorem slt : Statement (.slt rs rt rd shamt) := ofR rs rt rd shamt 0x2A _ rfl rfl rfl
theorem jr : Statement (.jr rs rt rd shamt) := ofR rs rt rd shamt 0x08 _ rfl rfl rfl
theorem addi : Statement (.addi rs rt imm) := ofI rs rt imm _ 0x08 rfl rfl rfl
theorem slti : Statement (.slti rs rt imm) := ofI rs rt imm _ 0x0A rfl rfl rfl
theorem andi : Statement (.andi rs rt imm) := ofI rs rt imm _ 0x0C rfl rfl rfl
theorem ori : Statement (.ori rs rt imm) := ofI rs rt imm _ 0x0D rfl rfl rfl
theorem beq : Statement (.beq rs rt imm) := ofI rs rt imm _ 0x04 rfl rfl rfl
theorem bne : Statement (.bne rs rt imm) := ofI rs rt imm _ 0x05 rfl rfl rfl
theorem lw : Statement (.lw rs rt imm) := ofI rs rt imm _ 0x23 rfl rfl rfl
theorem sw : Statement (.sw rs rt imm) := ofI rs rt imm _ 0x2B rfl rfl rfl
theorem j : Statement (.j a) := ofJ a _ 0x02 rfl rfl rfl
theorem halt : Statement (.halt a) := ofJ a _ 0x3F rfl rfl rfl

end Sys2Proof.Laws.Selector
end

