-- ==== Sys2Proof/Laws/Staged.lean ====
section
/-! SUPPORT. The small lemmas of the cells and of the latches made of them (10_state.md rules R20 to R22, R34), true by rfl: what
each operation does to what is read and to what the next edge commits. -/

namespace Sys2Proof.Machine

/-! ## One cell -/

section
variable {α : Type} (c : Cell α) (v w : α)

@[simp] theorem Cell.read_clean : (Cell.clean v).read = v := rfl
@[simp] theorem Cell.read_stage : (c.stage v).read = c.read := rfl
@[simp] theorem Cell.read_disable : c.disable.read = c.read := rfl
@[simp] theorem Cell.read_enable : c.enable.read = c.read := rfl
@[simp] theorem Cell.stage_stage : (c.stage v).stage w = c.stage w := rfl
@[simp] theorem Cell.enable_disable : c.disable.enable = c.enable := rfl
@[simp] theorem Cell.edge_clean : (Cell.clean v).edge = .clean v := rfl
@[simp] theorem Cell.edge_stage_enable : (c.stage v).enable.edge = .clean v := rfl
@[simp] theorem Cell.edge_stage_clean : ((Cell.clean v).stage w).edge = .clean w := rfl
@[simp] theorem Cell.edge_disable : c.disable.edge = .clean c.read := rfl
@[simp] theorem Cell.isClean_clean : (Cell.clean v).isClean = true := rfl
@[simp] theorem Cell.isClean_edge : c.edge.isClean = true := rfl

end

/-! ## The latches -/

@[simp] theorem ControlCells.read_clean (v : Controls) : (ControlCells.clean v).read = v := rfl
@[simp] theorem ControlCells.read_stage (c : ControlCells) (v : Controls) : (c.stage v).read = c.read := rfl
@[simp] theorem ControlCells.read_disable (c : ControlCells) : c.disable.read = c.read := rfl
@[simp] theorem ControlCells.edge_clean (v : Controls) : (ControlCells.clean v).edge = .clean v := rfl
@[simp] theorem ControlCells.edge_stage_clean (v w : Controls) : ((ControlCells.clean v).stage w).edge = .clean w := rfl
@[simp] theorem ControlCells.edge_disable (c : ControlCells) : c.disable.edge = .clean c.read := rfl
@[simp] theorem ControlCells.isClean_clean (v : Controls) : (ControlCells.clean v).isClean = true := rfl
@[simp] theorem ControlCells.isClean_edge (c : ControlCells) : c.edge.isClean = true := rfl

@[simp] theorem IfIdCells.read_clean (v : IfId) : (IfIdCells.clean v).read = v := rfl
@[simp] theorem IfIdCells.read_stage (c : IfIdCells) (v : IfId) : (c.stage v).read = c.read := rfl
@[simp] theorem IfIdCells.read_disable (c : IfIdCells) : c.disable.read = c.read := rfl
@[simp] theorem IfIdCells.edge_clean (v : IfId) : (IfIdCells.clean v).edge = .clean v := rfl
@[simp] theorem IfIdCells.edge_stage_clean (v w : IfId) : ((IfIdCells.clean v).stage w).edge = .clean w := rfl
@[simp] theorem IfIdCells.edge_disable (c : IfIdCells) : c.disable.edge = .clean c.read := rfl
@[simp] theorem IfIdCells.isClean_clean (v : IfId) : (IfIdCells.clean v).isClean = true := rfl
@[simp] theorem IfIdCells.isClean_edge (c : IfIdCells) : c.edge.isClean = true := rfl

@[simp] theorem IdExCells.read_clean (v : IdEx) : (IdExCells.clean v).read = v := rfl
@[simp] theorem IdExCells.read_stage (c : IdExCells) (v : IdEx) : (c.stage v).read = c.read := rfl
@[simp] theorem IdExCells.read_disable (c : IdExCells) : c.disable.read = c.read := rfl
@[simp] theorem IdExCells.edge_clean (v : IdEx) : (IdExCells.clean v).edge = .clean v := rfl
@[simp] theorem IdExCells.edge_stage_clean (v w : IdEx) : ((IdExCells.clean v).stage w).edge = .clean w := rfl
@[simp] theorem IdExCells.edge_disable (c : IdExCells) : c.disable.edge = .clean c.read := rfl
@[simp] theorem IdExCells.isClean_clean (v : IdEx) : (IdExCells.clean v).isClean = true := rfl
@[simp] theorem IdExCells.isClean_edge (c : IdExCells) : c.edge.isClean = true := rfl

@[simp] theorem ExMemCells.read_clean (v : ExMem) : (ExMemCells.clean v).read = v := rfl
@[simp] theorem ExMemCells.read_stage (c : ExMemCells) (v : ExMem) : (c.stage v).read = c.read := rfl
@[simp] theorem ExMemCells.read_disable (c : ExMemCells) : c.disable.read = c.read := rfl
@[simp] theorem ExMemCells.edge_clean (v : ExMem) : (ExMemCells.clean v).edge = .clean v := rfl
@[simp] theorem ExMemCells.edge_stage_clean (v w : ExMem) : ((ExMemCells.clean v).stage w).edge = .clean w := rfl
@[simp] theorem ExMemCells.edge_disable (c : ExMemCells) : c.disable.edge = .clean c.read := rfl
@[simp] theorem ExMemCells.isClean_clean (v : ExMem) : (ExMemCells.clean v).isClean = true := rfl
@[simp] theorem ExMemCells.isClean_edge (c : ExMemCells) : c.edge.isClean = true := rfl

@[simp] theorem MemWbCells.read_clean (v : MemWb) : (MemWbCells.clean v).read = v := rfl
@[simp] theorem MemWbCells.read_stage (c : MemWbCells) (v : MemWb) : (c.stage v).read = c.read := rfl
@[simp] theorem MemWbCells.read_disable (c : MemWbCells) : c.disable.read = c.read := rfl
@[simp] theorem MemWbCells.edge_clean (v : MemWb) : (MemWbCells.clean v).edge = .clean v := rfl
@[simp] theorem MemWbCells.edge_stage_clean (v w : MemWb) : ((MemWbCells.clean v).stage w).edge = .clean w := rfl
@[simp] theorem MemWbCells.edge_disable (c : MemWbCells) : c.disable.edge = .clean c.read := rfl
@[simp] theorem MemWbCells.isClean_clean (v : MemWb) : (MemWbCells.clean v).isClean = true := rfl
@[simp] theorem MemWbCells.isClean_edge (c : MemWbCells) : c.edge.isClean = true := rfl

/-! ## Bulk forward (R9, R37, R38) -/

@[simp] theorem ExMemCells.forward_toIdExCells (c : ExMemCells) (m : IdExCells) :
    (c.forward m).toIdExCells = c.toIdExCells.stage m.read := rfl
@[simp] theorem ExMemCells.forward_aluResult (c : ExMemCells) (m : IdExCells) : (c.forward m).aluResult = c.aluResult := rfl
@[simp] theorem ExMemCells.forward_writeData (c : ExMemCells) (m : IdExCells) : (c.forward m).writeData = c.writeData := rfl
@[simp] theorem MemWbCells.forward_toExMemCells (c : MemWbCells) (m : ExMemCells) :
    (c.forward m).toExMemCells = c.toExMemCells.stage m.read := rfl
@[simp] theorem MemWbCells.forward_memResult (c : MemWbCells) (m : ExMemCells) : (c.forward m).memResult = c.memResult := rfl

/-! ## The core -/

/-- Staging Decode's fields one by one is staging the whole of ID/EX. -/
@[simp] theorem Clocked.decodePart1_idex (d : Slot) (a b : Word) (c : Clocked) :
    (c.decodePart1 d a b).idex = c.idex.stage ⟨d, a, b⟩ := rfl
@[simp] theorem Clocked.start_committed (s : State) : (Clocked.start s).committed = s := rfl
@[simp] theorem Clocked.reset_committed (c : Clocked) : c.reset.committed = c.committed.resetCore := rfl
@[simp] theorem Clocked.isClean_start (s : State) : (Clocked.start s).isClean = true := rfl
@[simp] theorem Clocked.isClean_edge (c : Clocked) : c.edge.isClean = true := rfl

end Sys2Proof.Machine
end

