-- ==== Sys2Proof/Tests/Slice0.lean ====
section
/-! SUPPORT. The model's own tests. The words and the expected values come from 95_test_vectors.md (the vector is named at each
test) or are worked by hand from the rule named; none is the model's own answer. The last part shows, for every statement with
hypotheses, a concrete state and operands that meet them. -/

namespace Sys2Proof.Tests
open Sys2Proof.Machine

/-! ## Well-formedness: a term each check refuses -/

theorem test_wf_add_shamt : (Instr.add 1 2 3 5).wellFormed = false := by decide
theorem test_wf_sub_shamt : (Instr.sub 1 2 3 1).wellFormed = false := by decide
theorem test_wf_and_shamt : (Instr.and 1 2 3 31).wellFormed = false := by decide
theorem test_wf_or_shamt : (Instr.or 1 2 3 16).wellFormed = false := by decide
theorem test_wf_nor_shamt : (Instr.nor 1 2 3 2).wellFormed = false := by decide
theorem test_wf_slt_shamt : (Instr.slt 1 2 3 4).wellFormed = false := by decide
theorem test_wf_jr_rt : (Instr.jr 7 1 0 0).wellFormed = false := by decide
theorem test_wf_jr_rd : (Instr.jr 7 0 1 0).wellFormed = false := by decide
theorem test_wf_jr_shamt : (Instr.jr 7 0 0 1).wellFormed = false := by decide
theorem test_wf_halt_code : (Instr.halt 1).wellFormed = false := by decide
theorem test_wf_accepts : (Instr.jr 31 0 0 0).wellFormed = true ∧ (Instr.halt 0).wellFormed = true := by decide

/-- R97 refuses: two opcodes alike, two function codes alike, the all-zero word assigned. -/
theorem test_wf_params_opcodes : ¬ (Params.wf { params with opcJ := 0x3F }) := by decide
theorem test_wf_params_functs : ¬ (Params.wf { params with functJr := 0x20 }) := by decide
theorem test_wf_params_zero_word : ¬ (Params.wf { params with functSlt := 0x00 }) := by decide
theorem test_wf_params_defaults : params.wf := by decide

/-! ## Decoding: the words of B1, one for every row of the opcode table -/

theorem test_decode_add : decodeTableWord 32 0x00221820 = some (.add 1 2 3 0) := by decide
theorem test_decode_sub : decodeTableWord 32 0x00221822 = some (.sub 1 2 3 0) := by decide
theorem test_decode_and : decodeTableWord 32 0x00221824 = some (.and 1 2 3 0) := by decide
theorem test_decode_or : decodeTableWord 32 0x00221825 = some (.or 1 2 3 0) := by decide
theorem test_decode_nor : decodeTableWord 32 0x00221827 = some (.nor 1 2 3 0) := by decide
theorem test_decode_slt : decodeTableWord 32 0x0022182A = some (.slt 1 2 3 0) := by decide
theorem test_decode_jr : decodeTableWord 32 0x03E00008 = some (.jr 31 0 0 0) := by decide
theorem test_decode_addi : decodeTableWord 32 0x2021FFFF = some (.addi 1 1 0xFFFF) := by decide
theorem test_decode_slti : decodeTableWord 32 0x2822000A = some (.slti 1 2 10) := by decide
theorem test_decode_andi : decodeTableWord 32 0x302200FF = some (.andi 1 2 0xFF) := by decide
theorem test_decode_ori : decodeTableWord 32 0x34228000 = some (.ori 1 2 0x8000) := by decide
theorem test_decode_beq : decodeTableWord 32 0x10220003 = some (.beq 1 2 3) := by decide
theorem test_decode_bne : decodeTableWord 32 0x1420FFFB = some (.bne 1 0 0xFFFB) := by decide
theorem test_decode_lw : decodeTableWord 32 0x8C020020 = some (.lw 0 2 0x20) := by decide
theorem test_decode_sw : decodeTableWord 32 0xAC62FFFC = some (.sw 3 2 0xFFFC) := by decide
theorem test_decode_j : decodeTableWord 32 0x08000408 = some (.j 0x408) := by decide
theorem test_decode_halt : decodeTableWord 32 0xFC000000 = some (.halt 0) := by decide

/-- R102: `add` with a non-zero `shamt` is still `add`; R101: every word with opcode `0x3F` is a halt to Decode. -/
theorem test_decode_ignored_bits :
    decodeTableWord 32 0x00221960 = some (.add 1 2 3 5) ∧ decodeTableWord 32 0xFC000001 = some (.halt 1) := by decide

/-- V-UN and `nop`: words that select no row. -/
theorem test_decode_rejects :
    decodeTableWord 32 0x00000000 = none ∧ decodeTableWord 32 0x00010840 = none ∧ decodeTableWord 32 0x0C000400 = none ∧
      decodeTableWord 32 0x3C011234 = none := by decide

/-- A stream shorter than a word is no instruction (R90). -/
theorem test_decode_short : decodeBytes [0x00, 0x00, 0x22] = .error .shortWord := rfl

/-- The fields of `0x1420FFFB` as B1 lists them. -/
theorem test_fields :
    Field.opcode 0x1420FFFB#32 = 5 ∧ Field.rs 0x1420FFFB#32 = 1 ∧ Field.rt 0x1420FFFB#32 = 0 ∧ Field.rd 0x1420FFFB#32 = 31 ∧
      Field.shamt 0x1420FFFB#32 = 31 ∧ Field.funct 0x1420FFFB#32 = 0x3B ∧ sext32 (Field.imm 0x1420FFFB#32) = 0xFFFFFFFB#32 ∧
      Field.addr 0x1420FFFB#32 = 0x020FFFB := by decide

/-- R103: "With the default numbers no two rows overlap". -/
theorem test_rows_disjoint : opcodeTable.Pairwise fun a b => a.pattern &&& b.mask ≠ b.pattern &&& a.mask := by decide

/-! ## One cycle at a time -/

/-- The next state, where there is one. -/
def nextState : Host.Outcome State Fault Refusal → Option State
  | .next s => some s
  | .fault _ => none
  | .refused _ => none

/-- The fault, where there is one. -/
def faultOf : Host.Outcome State Fault Refusal → Option Fault
  | .next _ => none
  | .fault f => some f
  | .refused _ => none

/-- An image of 64 words of zeros, the core empty, and `pc` at word 2. -/
def base : State := { State.reset with pc := 8, mem := ⟨64, []⟩ }

/-- Registers 1 and 2 at `a` and `b`, the others 0. -/
def regs (a b : Word) : RegFile := (State.reset.regs.put 1 a).put 2 b

/-- The word `w` in Decode, fetched from byte address 4. -/
def atDecode (w a b : Word) : State := { base with ifid := ⟨w, 4, true⟩, regs := regs a b }

/-- The word `w` in Execute, with the register values Decode read. -/
def atExecute (w a b : Word) : State := { base with idex := (rawSlot params ⟨w, 4, true⟩).toIdEx (regs a b), regs := regs a b }

/-- The ALU result one cycle later. -/
def aluOf (w a b : Word) : Option Word := (nextState (step (atExecute w a b))).map (·.exmem.aluResult)

/-- The word `w` in MemoryAccess, with the ALU result and the data to store given. -/
def atMemory (w result data : Word) : State :=
  { base with exmem := ⟨(rawSlot params ⟨w, 4, true⟩).toIdEx (regs 0 0), result, data⟩ }

/-! The rows of B2. -/

theorem test_add : aluOf 0x00221820 0xFFFFFFFF 0x00000001 = some 0x00000000 := by decide
theorem test_add_no_trap : aluOf 0x00221820 0x7FFFFFFF 0x00000001 = some 0x80000000 := by decide
theorem test_sub : aluOf 0x00221822 0x00000000 0x00000001 = some 0xFFFFFFFF := by decide
theorem test_sub_order : aluOf 0x00221822 0x12345678 0x0F0F0F0F = some 0x03254769 := by decide
theorem test_and : aluOf 0x00221824 0x12345678 0x0F0F0F0F = some 0x02040608 := by decide
theorem test_or : aluOf 0x00221825 0x12345678 0x0F0F0F0F = some 0x1F3F5F7F := by decide
theorem test_nor : aluOf 0x00221827 0x12345678 0x0F0F0F0F = some 0xE0C0A080 := by decide
theorem test_slt_unsigned : aluOf 0x0022182A 0x00000005 0xFFFFFFFF = some 1 := by decide
theorem test_slt_unsigned' : aluOf 0x0022182A 0x80000000 0x00000001 = some 0 := by decide

/-! V-IMM and V-SLTI; `2022FFFF` is `addi r2,r1,-1`. -/

theorem test_addi_negative : aluOf 0x2022FFFF 0x00000005 0 = some 0x00000004 := by decide
theorem test_andi : aluOf 0x302200FF 0xFFFFFFFF 0 = some 0x000000FF := by decide
theorem test_ori_sign_extends : aluOf 0x34228000 0x00000000 0 = some 0xFFFF8000 := by decide
theorem test_slti_unsigned : aluOf 0x2822FFFF 0x00000000 0 = some 1 := by decide
theorem test_slti : aluOf 0x2822000A 0x0000000A 0 = some 0 := by decide

/-! Branches and jumps: `10220003` is `beq r1,r2,3`, at address 4: the target is `4 + 4 + 12 = 20`. `1422FFFB` is `bne r1,r2,-5`:
the target is `4 + 4 - 20`, modulo 2^32. -/

theorem test_beq_taken :
    (nextState (step (atDecode 0x10220003 9 9))).map (fun s => (s.pc, s.ifid)) = some (0x00000014, IfId.zero) := by decide
theorem test_beq_not_taken :
    (nextState (step (atDecode 0x10220003 9 8))).map (fun s => (s.pc, s.ifid)) = some (0x0000000C, ⟨0, 8, true⟩) := by decide
theorem test_bne_taken :
    (nextState (step (atDecode 0x1422FFFB 9 8))).map (fun s => (s.pc, s.ifid)) = some (0xFFFFFFF4, IfId.zero) := by decide
theorem test_bne_not_taken :
    (nextState (step (atDecode 0x1422FFFB 9 9))).map (fun s => (s.pc, s.ifid)) = some (0x0000000C, ⟨0, 8, true⟩) := by decide
/-- `08000408` is `j 0x1020`. -/
theorem test_j :
    (nextState (step (atDecode 0x08000408 0 0))).map (fun s => (s.pc, s.ifid)) = some (0x00001020, IfId.zero) := by decide
/-- `00200008` is `jr r1`; the register value is the byte address (decision D17). -/
theorem test_jr :
    (nextState (step (atDecode 0x00200008 0x00002000 0))).map (fun s => (s.pc, s.ifid)) = some (0x00002000, IfId.zero) := by decide
/-- V-F3. -/
theorem test_jr_misaligned :
    faultOf (step (atDecode 0x00200008 0x00001002 0)) = some (.misalignedJumpRegister 0x00001002) := by decide

/-! Loads and stores in MemoryAccess. -/

/-- V-MIS: memory word 1 is `AABBCCDD`; address 7 names it. -/
theorem test_lw :
    (nextState (step { atMemory 0x8C010007 7 0 with mem := (⟨64, []⟩ : Memory).setWord 1 0xAABBCCDD })).map
      (·.memwb.memResult) = some 0xAABBCCDD := by decide
/-- V-F2. -/
theorem test_lw_outside : faultOf (step (atMemory 0x8C017FFF 0x7FFF 0)) = some (.outOfBounds .load 0x7FFF) := by decide
/-- V-SL's store: `0x55` at address 8, low byte at the lowest address. -/
theorem test_sw :
    (nextState (step (atMemory 0xAC010008 8 0x00000155))).map (·.mem.cells) = some [(8, 0x55), (9, 0x01)] := by decide
/-- V-F4. -/
theorem test_sw_outside :
    faultOf (step (atMemory 0xAC220000 0xFFFFFFFC 0)) = some (.outOfBounds .store 0xFFFFFFFC) := by decide

/-! Halt. -/

/-- R281: at the edge of the cycle in which the halt is in MemoryAccess `halted` becomes true. -/
theorem test_halt : (nextState (step (atMemory 0xFC000000 0 0))).map (·.halted) = some true := by decide
/-- R131: fetching the canonical halt word leaves `pc` at it. -/
theorem test_halt_freeze :
    (nextState (step { base with mem := (⟨64, []⟩ : Memory).setWord 2 0xFC000000 })).map (fun s => (s.pc, s.ifid)) =
      some (8, ⟨0xFC000000, 8, true⟩) := by decide

/-! The rest of the cycle. -/

/-- V-PRI: EX/MEM (2) wins over MEM/WB (1) for both operands of `add r2,r1,r1`. -/
theorem test_forward_priority :
    (nextState (step { atExecute 0x00211020 0 0 with
        exmem := ⟨(rawSlot params ⟨0x20010002, 4, true⟩).toIdEx (regs 0 0), 2, 0⟩
        memwb := ⟨⟨(rawSlot params ⟨0x20010001, 4, true⟩).toIdEx (regs 0 0), 1, 0⟩, 0⟩ })).map
      (·.exmem.aluResult) = some 4 := by decide
/-- V-R0: a result for register 0 is neither written nor forwarded. -/
theorem test_register_zero :
    (nextState (step { atExecute 0x00000820 0 0 with
        exmem := ⟨(rawSlot params ⟨0x20000005, 4, true⟩).toIdEx (regs 0 0), 5, 0⟩
        memwb := ⟨⟨(rawSlot params ⟨0x20000005, 4, true⟩).toIdEx (regs 0 0), 5, 0⟩, 0⟩ })).map
      (fun s => (s.exmem.aluResult, RegFile.read s.regs 0)) = some (0, 0) := by decide
/-- V-FH2: the load-use check fires on register 0; `pc` and IF/ID stay and a bubble enters ID/EX. -/
theorem test_stall_register_zero :
    (nextState (step { atExecute 0x8C000000 0 0 with ifid := ⟨0x20010005, 4, true⟩ })).map (fun s => (s.pc, s.ifid, s.idex)) =
      some (8, ⟨0x20010005, 4, true⟩, IdEx.zero) := by decide
/-- V-F1: a fetch one word past the image. -/
theorem test_fetch_outside : faultOf (step { base with pc := 256 }) = some (.outOfBounds .fetch 256) := by decide
/-- R64: the first word of a file, and a partial last word that is not consumed. -/
theorem test_loader :
    (loadImage [0x0A, 0x00, 0x00, 0x00, 0xFF]).words = 1 ∧ (loadImage [0x0D, 0x0C, 0x0B, 0x0A, 0xFF]).wordAt 0 = 0x0A0B0C0D := by
  decide
/-- A1: committed 3; stage 8; disable; edge; read gives 3; edge; read gives 3; stage 7; edge; read gives 7. -/
theorem test_cell :
    (((Cell.clean 3).stage 8).disable.edge).read = 3 ∧ (((Cell.clean 3).stage 8).disable.edge.edge).read = 3 ∧
      ((((Cell.clean 3).stage 8).disable.edge.edge.stage 7).edge).read = 7 := by decide
/-- V-H0: `halt` alone at the reset vector takes 4 cycles, retires nothing, and there is no CPI. -/
theorem test_cpi : (Driver.mk State.reset 4 0).cpi = none := by decide

/-! ## The statements' hypotheses are met

One theorem for every statement with hypotheses, named after it; where a statement has several cases, one state for each. -/

/-- Each row's word, placed after reset, runs to a next state in its Decode cycle. -/
theorem test_rows_run : ∀ r ∈ opcodeTable, (nextState (step (State.reset.withFetchWord 32 r.pattern.toNat))).isSome = true := by
  decide

/-- A state answers a next state. -/
theorem step_next {s : State} (h : (nextState (step s)).isSome = true) : ∃ t, step s = .next t := by
  cases hs : step s with
  | next t => exact ⟨t, rfl⟩
  | fault f => rw [hs] at h; cases h
  | refused r => rw [hs] at h; cases h

/-- So does an instruction. -/
theorem exec_next {i : Instr} {s : State} (h : (nextState (exec i s)).isSome = true) : ∃ t, exec i s = .next t := by
  cases hs : exec i s with
  | next t => exact ⟨t, rfl⟩
  | fault f => rw [hs] at h; cases h
  | refused r => rw [hs] at h; cases h

/-- The state four cycles on, where there is one. -/
def passing (i : Instr) (s : State) : Option State :=
  (((nextState (exec i s)).bind fun s => nextState (step s)).bind fun s => nextState (step s)).bind fun s => nextState (step s)

theorem nextState_eq_some {o : Host.Outcome State Fault Refusal} {t : State} : nextState o = some t ↔ o = .next t := by
  cases o <;> simp [nextState]

theorem passes {i : Instr} {s : State} (h : (passing i s).isSome = true) : ∃ s₁ s₂ s₃ s₄, Passes i s s₁ s₂ s₃ s₄ := by
  obtain ⟨s₄, h4⟩ := Option.isSome_iff_exists.mp h
  obtain ⟨s₃, h3, h4⟩ := Option.bind_eq_some_iff.mp h4
  obtain ⟨s₂, h2, h3⟩ := Option.bind_eq_some_iff.mp h3
  obtain ⟨s₁, h1, h2⟩ := Option.bind_eq_some_iff.mp h2
  exact ⟨s₁, s₂, s₃, s₄, nextState_eq_some.mp h1, nextState_eq_some.mp h2, nextState_eq_some.mp h3, nextState_eq_some.mp h4⟩

/-- The same core with registers 1 and 2 set. -/
def based (a b : Word) : State := { base with regs := regs a b }

/-- In `based` whatever is decoded runs alone. -/
theorem based_alone (a b : Word) : (based a b).Alone := 
  ⟨rfl, rfl, rfl, (by decide : base.mem.read base.pc = some 0), (by decide : base.mem.read (base.pc + 4) = some 0),
    (by decide : base.mem.read (base.pc + 8) = some 0), (by decide : base.mem.read (base.pc + 12) = some 0)⟩

/-- Three results in flight, youngest first: `addi r1` in Execute (7), `lw r2` in MemoryAccess, `addi r1` in Writeback (1). -/
def busy : State :=
  { base with
    regs := regs 0x10 0x20
    ifid := ⟨0x00221820, 4, true⟩
    idex := (rawSlot params ⟨0x20010007, 0, true⟩).toIdEx (regs 0 0)
    exmem := ⟨(rawSlot params ⟨0x8C020008, 0, true⟩).toIdEx (regs 0 0), 8, 0⟩
    memwb := ⟨⟨(rawSlot params ⟨0x20010001, 0, true⟩).toIdEx (regs 0 0), 1, 0⟩, 0⟩ }

theorem busy_inv : busy.Inv :=
  ⟨by decide, by decide, by decide, by decide, by decide, by decide, by decide, by decide, by decide⟩

/-- E2 after cycle 2: `lw r1,0(r0)` in Execute and `add r2,r1,r1` in Decode. -/
def loadUse : State := { atExecute 0x8C010000 0 0 with ifid := ⟨0x00211020, 4, true⟩ }

theorem loadUse_inv : loadUse.Inv :=
  ⟨by decide, by decide, by decide, by decide, by decide, by decide, by decide, by decide, by decide⟩

/-- The numbers of the table turned round: `halt`'s opcode stays, the all-zero word stays unassigned. -/
theorem witness_DecodeInvertsEncode :
    params.wf ∧ Params.wf { params with opcRtype := 0x3E, opcJ := 0x01, functAdd := 0x00, functJr := 0x3F } := by decide

theorem witness_EncodeInvertsDecode : ∃ i, decodeWith params 0x1420FFFB#32 = .ok i := ⟨_, rfl⟩

theorem witness_DecoderFollowsTheOpcodeTable : ∃ row ∈ opcodeTable, ∃ w w' : Word,
    w &&& row.mask = row.pattern ∧ (∃ i, decode w = .ok i ∧ i.mnemonic = row.mnemonic) ∧ w' &&& row.mask ≠ row.pattern :=
  ⟨⟨"add", 0xFC00003F#32, 0x00000020#32⟩, by decide, 0x00221820#32, 0x00221822#32, by decide, ⟨_, rfl, rfl⟩, by decide⟩

theorem witness_BytesDecodeAsTheirWord :
    decode 0x00221820#32 = .ok (.add 1 2 3 0) ∧ bytesOfWord 0x00221820#32 = [0x20, 0x18, 0x22, 0x00] := ⟨rfl, by decide⟩

theorem witness_StepRunsTheDecodedInstruction :
    (atDecode 0x00221820 1 2).ifid.valid = true ∧ decode (atDecode 0x00221820 1 2).ifid.instr = .ok (.add 1 2 3 0) := ⟨rfl, rfl⟩

theorem witness_PlacedWordRunsNext : decode 0xAC62FFFC#32 = .ok (.sw 3 2 0xFFFC) := rfl

theorem noStall {s : State} {w : Word} (h : hazard s.idex (Field.rs w) (Field.rt w) = false) : ¬ s.Stalls w :=
  State.not_stalls_iff.mpr h

theorem stall {s : State} {w : Word} (h : hazard s.idex (Field.rs w) (Field.rt w) = true) : s.Stalls w :=
  State.stalls_iff.mpr h

theorem noLoadUse {s : State} {rs rt : RegId} (h : hazard s.idex rs rt = false) : ¬ s.LoadUse rs rt :=
  State.not_loadUse_iff.mpr h

theorem noAccess {s : State} (h : s.exmem.ctl = Controls.zero) : s.DataOk := by
  rintro (h' | h') <;> rw [h] at h' <;> cases h'

/-- A bubble, `nop`, and an unassigned opcode. -/
theorem witness_WordsOfNoRowAreNoOps : ∀ s ∈ [base, atDecode 0 0 0, atDecode 0x3C011234 0 0],
    s.instrInDecode = none ∧ s.FetchOk ∧ s.DataOk ∧ ¬ s.Stalls s.ifid.instr := by
  intro s hs
  simp only [List.mem_cons, List.not_mem_nil, or_false] at hs
  rcases hs with rfl | rfl | rfl
  all_goals exact ⟨by decide, by show wordIndex _ < _; decide, noAccess rfl, noStall rfl⟩

/-- A `jr` with an aligned register, and one with a misaligned register held off by a load. -/
theorem witness_EveryInstructionPassesDecode :
    ((based 0x2000 0).FetchOk ∧ (based 0x2000 0).DataOk ∧ ¬ (based 0x2000 0).Stalls (encode (.jr 1 0 0 0)) ∧
      ((based 0x2000 0).decodeRead 1).toNat % 4 = 0) ∧
    (loadUse.FetchOk ∧ loadUse.DataOk ∧ loadUse.Stalls (encode (.jr 1 0 0 0))) :=
  ⟨⟨by show wordIndex _ < _; decide, noAccess rfl, noStall rfl, by decide⟩,
    ⟨by show wordIndex _ < _; decide, noAccess rfl, stall (by decide)⟩⟩

/-- A fetch just past the image and just inside it, of `nop` and of the halt word. -/
theorem witness_FetchReadsStampsAndAdvances :
    ¬ ({ base with pc := 256 } : State).FetchOk ∧ ({ base with pc := 252 } : State).FetchOk ∧
    ∀ s ∈ [({ base with pc := 252 } : State), { base with mem := (⟨64, []⟩ : Memory).setWord 2 Config.haltWord }],
      (∃ t, step s = .next t) ∧ ¬ s.Stalls s.ifid.instr ∧ (rawSlot params s.ifid).ctl.jump = false ∧
        (rawSlot params s.ifid).ctl.branch = false := by
  refine ⟨by show ¬ wordIndex _ < _; decide, by show wordIndex _ < _; decide, fun s hs => ?_⟩
  simp only [List.mem_cons, List.not_mem_nil, or_false] at hs
  rcases hs with rfl | rfl
  all_goals exact ⟨step_next (by decide), noStall rfl, rfl, rfl⟩

/-- A result for register 1, and none. -/
theorem witness_WritebackIsTheOnlyRegisterWrite :
    (busy.memwb.ctl.regWrite = true ∧ busy.memwb.dest = 1 ∧ ¬ busy.Stalls busy.ifid.instr ∧ ∃ t, step busy = .next t) ∧
      ∃ t, step base = .next t :=
  ⟨⟨rfl, by decide, noStall rfl, step_next (by decide)⟩, step_next (by decide)⟩

/-- Each of the six operations in Execute. -/
theorem witness_ExecuteCarriesAndComputes :
    (∀ w ∈ [0x00221820, 0x00221822, 0x00221824, 0x00221825, 0x00221827, 0x0022182A], (aluOf w 1 2).isSome = true) ∧
    (atExecute 0x00221820 1 2).idex.ctl.aluOp = 0 ∧ (atExecute 0x00221822 1 2).idex.ctl.aluOp = 1 ∧
    (atExecute 0x00221824 1 2).idex.ctl.aluOp = 2 ∧ (atExecute 0x00221825 1 2).idex.ctl.aluOp = 3 ∧
    (atExecute 0x00221827 1 2).idex.ctl.aluOp = 4 ∧ (atExecute 0x0022182A 1 2).idex.ctl.aluOp = 5 := by
  refine ⟨fun w hw => ?_, by decide, by decide, by decide, by decide, by decide, by decide⟩
  simp only [List.mem_cons, List.not_mem_nil, or_false] at hw
  rcases hw with rfl | rfl | rfl | rfl | rfl | rfl <;> decide

/-- A load, a store and neither, in MemoryAccess. -/
theorem witness_MemoryAccessReadsOrWrites :
    (busy.exmem.ctl.memRead = true ∧ ∃ t, step busy = .next t) ∧
    ((atMemory 0xAC010008 252 5).exmem.ctl.memWrite = true ∧ ∃ t, step (atMemory 0xAC010008 252 5) = .next t) ∧
    (base.exmem.ctl.memRead = false ∧ base.exmem.ctl.memWrite = false ∧ ∃ t, step base = .next t) :=
  ⟨⟨rfl, step_next (by decide)⟩, ⟨by decide, step_next (by decide)⟩, ⟨rfl, rfl, step_next (by decide)⟩⟩

/-- A load of `r1` before a word that names it, a load of `r0` before a word with `rs = 0` (V-FH2), no load, and a load of another
register than the word's two. -/
theorem witness_StallHoldsTheFrontEndForOneCycle :
    (loadUse.FetchOk ∧ loadUse.DataOk ∧ loadUse.idex.ctl.memRead = true ∧
      loadUse.idex.rt = Field.rs loadUse.ifid.instr ∧ loadUse.idex.rt = Field.rs (encode (.sw 1 2 0))) ∧
    ((atExecute 0x8C000000 0 0).FetchOk ∧ (atExecute 0x8C000000 0 0).DataOk ∧
      (atExecute 0x8C000000 0 0).idex.ctl.memRead = true ∧
      (atExecute 0x8C000000 0 0).idex.rt = Field.rs (encode (.addi 0 1 5))) ∧
    (busy.FetchOk ∧ busy.DataOk ∧ busy.idex.ctl.memRead = false ∧ (∃ t, step busy = .next t) ∧
      ∃ t, exec (.add 1 2 3 0) busy = .next t) ∧
    loadUse.idex.rt ≠ Field.rs (encode (.sub 4 5 6 0)) ∧ loadUse.idex.rt ≠ Field.rt (encode (.sub 4 5 6 0)) ∧
      ∃ t, exec (.sub 4 5 6 0) loadUse = .next t :=
  ⟨⟨by show wordIndex _ < _; decide, noAccess rfl, by decide, by decide, by decide⟩,
    ⟨by show wordIndex _ < _; decide, noAccess rfl, by decide, by decide⟩,
    ⟨by show wordIndex _ < _; decide, fun _ => by show wordIndex _ < _; decide, by decide, step_next (by decide),
      exec_next (by decide)⟩,
    by decide, by decide, exec_next (by decide)⟩

theorem witness_LoadUseConsumerSeesTheLoadedWord :
    loadUse.idex.ctl = Row.lw ∧ loadUse.idex.rt ≠ 0 ∧ loadUse.Stalls loadUse.ifid.instr ∧
      (∃ t u, step loadUse = .next t ∧ step t = .next u) ∧ Field.rs loadUse.ifid.instr = loadUse.idex.rt := by
  obtain ⟨t, ht⟩ := step_next (s := loadUse) (by decide)
  refine ⟨by decide, by decide, stall (by decide), ⟨t, ?_⟩, by decide⟩
  have h : ((nextState (step loadUse)).bind fun t => nextState (step t)).isSome = true := by decide
  rw [ht] at h
  obtain ⟨u, hu⟩ := step_next (s := t) h
  exact ⟨u, ht, hu⟩

/-- The three sources of a program-order value: `r1` from Execute, `r2` from MemoryAccess, any other from Writeback or the file;
and a stalled cycle, in which `r1` is the word that the load in Execute will read. -/
theorem witness_ExecuteOperandsAreProgramOrderValues :
    (busy.Inv ∧ (∃ t, step busy = .next t) ∧ ¬ busy.Stalls busy.ifid.instr ∧
      busy.progVal 1 = 7 ∧ busy.progVal 2 = 0 ∧ busy.progVal 3 = 0) ∧
    loadUse.Inv ∧ (∃ t, step loadUse = .next t) ∧ loadUse.Stalls loadUse.ifid.instr ∧ loadUse.progVal 1 = 0 :=
  ⟨⟨busy_inv, step_next (by decide), noStall rfl, by decide, by decide, by decide⟩,
    loadUse_inv, step_next (by decide), stall (by decide), by decide⟩

/-- `progVal` of a load in Execute is the word at its address, after the store in MemoryAccess to the same word. -/
theorem test_progVal_load :
    ({ loadUse with exmem := (atMemory 0xAC010008 0 0x55).exmem } : State).progVal 1 = 0x55 := by decide

/-- For the two statements about ALU instructions alone, and for `HaltCompletes`. -/
theorem witness_Alone : (based 5 0xFFFFFFFF).Alone := based_alone _ _

/-- For the two statements about ALU instructions in program order: an `add` and an `addi` of values in flight. -/
theorem witness_AluResultsInProgramOrder :
    busy.Inv ∧ ¬ busy.LoadUse 1 2 ∧ (∃ s₁ s₂ s₃ s₄, Passes (.add 1 2 3 0) busy s₁ s₂ s₃ s₄) ∧
      ∃ s₁ s₂ s₃ s₄, Passes (.addi 1 2 0xFFFF) busy s₁ s₂ s₃ s₄ :=
  ⟨busy_inv, noLoadUse rfl, passes (by decide), passes (by decide)⟩

/-- The last word of the image: `252(r0)`, with `r1` holding 0. -/
theorem witness_LoadAndStoreComplete :
    (based 0 9).Alone ∧ (based 0 9).mem.wf ∧
      (based 0 9).mem.inBounds (RegFile.read (based 0 9).regs 1 + (252 : Imm16).signExtend 32) :=
  ⟨based_alone _ _, by decide, by decide⟩

/-- One word further, and a negative displacement that wraps (V-F4). -/
theorem witness_AccessOutsideTheImageIsFatal :
    (based 0 9).Alone ∧ ¬ (based 0 9).mem.inBounds (RegFile.read (based 0 9).regs 1 + (256 : Imm16).signExtend 32) ∧
      ¬ (based 0 9).mem.inBounds (RegFile.read (based 0 9).regs 1 + (0xFFFC : Imm16).signExtend 32) :=
  ⟨based_alone _ _, by decide, by decide⟩

theorem witness_LoadsAndStoresInProgramOrder :
    busy.Inv ∧ ¬ busy.LoadUse 1 2 ∧ (∃ s₁ s₂ s₃ s₄, Passes (.lw 1 2 1) busy s₁ s₂ s₃ s₄) ∧
      ∃ s₁ s₂ s₃ s₄, Passes (.sw 1 2 0x20) busy s₁ s₂ s₃ s₄ :=
  ⟨busy_inv, noLoadUse rfl, passes (by decide), passes (by decide)⟩

/-- Equal and different registers, for both branches. -/
theorem witness_BranchesResolveInDecode : ∀ s ∈ [based 9 9, based 9 8],
    s.FetchOk ∧ s.DataOk ∧ ¬ s.LoadUse 1 2 := by
  intro s hs
  simp only [List.mem_cons, List.not_mem_nil, or_false] at hs
  rcases hs with rfl | rfl
  all_goals exact ⟨by show wordIndex _ < _; decide, noAccess rfl, noLoadUse rfl⟩

theorem witness_BranchesResolveInDecode_cases :
    (based 9 9).decodeRead 1 = (based 9 9).decodeRead 2 ∧ (based 9 8).decodeRead 1 ≠ (based 9 8).decodeRead 2 := by decide

theorem witness_JumpGoesToFourTimesItsAddress : base.FetchOk ∧ base.DataOk ∧ ¬ base.Stalls (encode (.j 0x3FFFFFF)) :=
  ⟨by show wordIndex _ < _; decide, noAccess rfl, noStall rfl⟩

/-- An aligned register; a misaligned one beside a load out of bounds in the same cycle. -/
theorem witness_JumpRegisterGoesToItsRegister :
    ((based 0x2000 0).FetchOk ∧ ¬ (based 0x2000 0).LoadUse 1 0 ∧ ((based 0x2000 0).decodeRead 1).toNat % 4 = 0 ∧
      (based 0x2000 0).DataOk) ∧
    (({ atMemory 0x8C017FFF 0x7FFF 0 with regs := regs 3 0 } : State).FetchOk ∧
      ¬ ({ atMemory 0x8C017FFF 0x7FFF 0 with regs := regs 3 0 } : State).LoadUse 1 0 ∧
      (({ atMemory 0x8C017FFF 0x7FFF 0 with regs := regs 3 0 } : State).decodeRead 1).toNat % 4 ≠ 0 ∧
      ¬ ({ atMemory 0x8C017FFF 0x7FFF 0 with regs := regs 3 0 } : State).DataOk) :=
  ⟨⟨by show wordIndex _ < _; decide, noLoadUse rfl, by decide, noAccess rfl⟩,
    ⟨by show wordIndex _ < _; decide, noLoadUse rfl, by decide, fun h => absurd (h (.inl (by decide))) (by decide)⟩⟩

theorem witness_TransfersAndHaltWriteNothing :
    ∀ i ∈ [Instr.beq 1 2 3, .bne 1 2 3, .j 3, .jr 1 0 0 0, .halt 0],
      (i.mnemonic = "beq" ∨ i.mnemonic = "bne" ∨ i.mnemonic = "j" ∨ i.mnemonic = "jr" ∨ i.mnemonic = "halt") ∧
        ∃ s₁ s₂ s₃ s₄, Passes i (based 16 8) s₁ s₂ s₃ s₄ := by
  intro i hi
  simp only [List.mem_cons, List.not_mem_nil, or_false] at hi
  rcases hi with rfl | rfl | rfl | rfl | rfl
  all_goals exact ⟨by decide, passes (by decide)⟩

/-- A canonical and a non-canonical halt behind other instructions. -/
theorem witness_HaltReachesWriteback :
    ¬ busy.Stalls (encode (.halt 0)) ∧ ¬ busy.Stalls (encode (.halt 1)) ∧
      (∃ s₁ s₂ s₃ s₄, Passes (.halt 0) busy s₁ s₂ s₃ s₄) ∧ ∃ s₁ s₂ s₃ s₄, Passes (.halt 1) busy s₁ s₂ s₃ s₄ :=
  ⟨noStall rfl, noStall rfl, passes (by decide), passes (by decide)⟩

/-- The frozen front end, with nothing and with a load ahead of the halt. -/
theorem witness_CanonicalHaltHoldsTheCounter :
    ∀ e ∈ [base.idex, (atExecute 0x8C000000 0 0).idex],
      let s : State := { base with mem := (⟨64, []⟩ : Memory).setWord 2 Config.haltWord, ifid := ⟨Config.haltWord, 8, true⟩, idex := e }
      s.ifid = ⟨Config.haltWord, s.pc, true⟩ ∧ s.mem.read s.pc = some Config.haltWord ∧ ∃ t, step s = .next t := by
  intro e he
  simp only [List.mem_cons, List.not_mem_nil, or_false] at he
  rcases he with rfl | rfl
  all_goals exact ⟨rfl, by decide, step_next (by decide)⟩

/-- The same front end with a store in MemoryAccess to another word; no store is the case above. -/
theorem witness_CanonicalHaltHoldsTheCounter_store :
    let s : State := { atMemory 0xAC010008 12 5 with
      mem := (⟨64, []⟩ : Memory).setWord 2 Config.haltWord, ifid := ⟨Config.haltWord, 8, true⟩ }
    s.ifid = ⟨Config.haltWord, s.pc, true⟩ ∧ s.mem.read s.pc = some Config.haltWord ∧ (∃ t, step s = .next t) ∧
      s.exmem.ctl.memWrite = true ∧ wordIndex s.exmem.aluResult ≠ wordIndex s.pc :=
  ⟨rfl, by decide, step_next (by decide), by decide, by decide⟩

/-- Each of the four Fatal conditions, and the priority of an earlier stage over a later one. -/
theorem witness_FatalConditionsAndTheirPriority :
    faultOf (step { atMemory 0x8C017FFF 0x7FFF 0 with pc := 256 }) = some (.outOfBounds .fetch 256) ∧
    faultOf (step { atMemory 0x8C017FFF 0x7FFF 0 with ifid := ⟨0x00200008, 4, true⟩, regs := regs 3 0 }) =
      some (.misalignedJumpRegister 3) ∧
    faultOf (step (atMemory 0x8C017FFF 256 0)) = some (.outOfBounds .load 256) ∧
    faultOf (step (atMemory 0xAC017FFF 256 0)) = some (.outOfBounds .store 256) := by decide

/-- The last word of the image and the one after it. -/
theorem witness_ReadsReturnTheLatestWrite :
    (⟨64, []⟩ : Memory).wf ∧ ((252 : Word) >>> 2).toNat < 64 ∧ 64 ≤ ((256 : Word) >>> 2).toNat := by decide

/-- The same boundary for reads, and two addresses of one word. -/
theorem witness_AccessesUseTheWordIndex :
    ((252 : Word) >>> 2).toNat < (⟨64, []⟩ : Memory).words ∧ (⟨64, []⟩ : Memory).words ≤ ((256 : Word) >>> 2).toNat ∧
      (4 : Word) >>> 2 = (7 : Word) >>> 2 ∧ (4 : Word) ≠ 7 := by decide

/-- A cycle that writes `r1` (Writeback of `busy`) and one that stores to the last word. -/
theorem witness_CycleFrame :
    (∃ t, exec (.add 1 2 3 0) busy = .next t) ∧ busy.memwb.ctl.regWrite = true ∧ (3 : RegId) ≠ busy.memwb.dest ∧
    (∃ t, exec (.add 1 2 3 0) (atMemory 0xAC010008 252 5) = .next t) ∧
      (atMemory 0xAC010008 252 5).exmem.ctl.memWrite = true ∧ 251 / 4 ≠ wordIndex (atMemory 0xAC010008 252 5).exmem.aluResult :=
  ⟨exec_next (by decide), rfl, by decide, exec_next (by decide), by decide, by decide⟩

/-- A store to the word the next cycle fetches (word 3), and one elsewhere. -/
theorem witness_FetchComesBeforeTheStore : ∀ s ∈ [atMemory 0xAC010008 12 5, atMemory 0xAC010008 252 5],
    s.mem.wf ∧ s.exmem.ctl.memWrite = true ∧ ∃ t, step s = .next t := by
  intro s hs
  simp only [List.mem_cons, List.not_mem_nil, or_false] at hs
  rcases hs with rfl | rfl
  all_goals exact ⟨by decide, by decide, step_next (by decide)⟩

theorem witness_RegisterZeroStaysZero :
    RegFile.read (regs 5 9) 0 = 0 ∧ RegFile.read busy.regs 0 = 0 ∧ ∃ t, step busy = .next t :=
  ⟨by decide, by decide, step_next (by decide)⟩

/-- A busy pipeline, and one that stalls. -/
theorem witness_EveryStepKeepsTheInvariant :
    (busy.Inv ∧ ∃ t, step busy = .next t) ∧ loadUse.Inv ∧ ∃ t, step loadUse = .next t :=
  ⟨⟨busy_inv, step_next (by decide)⟩, loadUse_inv, step_next (by decide)⟩

/-- One byte short of 1025 words, and 1025 words. -/
theorem witness_FirstCycleFetchesTheResetVector :
    (List.replicate 4099 (0 : Byte)).length / 4 < 1025 ∧ 1025 ≤ (List.replicate 4100 (0 : Byte)).length / 4 := by
  simp only [List.length_replicate]
  decide

/-- V-H0: `halt` alone takes four cycles and retires nothing; with `addi r1,r1,-1` and a `nop` before it six cycles, one retired. -/
theorem witness_FourCyclesOfOverhead :
    (∃ d, Driver.run 9 (Driver.start { State.reset with mem := (⟨1025, []⟩ : Memory).setWord 1024 Config.haltWord }) = .halted d ∧
      d.cycles = 4 ∧ d.retired = 0) ∧
    ∃ d, Driver.run 9 (Driver.start { State.reset with
        mem := ((⟨1027, []⟩ : Memory).setWord 1024 0x2021FFFF).setWord 1026 Config.haltWord }) = .halted d ∧
      d.cycles = 6 ∧ d.retired = 1 := ⟨⟨_, rfl, rfl, rfl⟩, ⟨_, rfl, rfl, rfl⟩⟩

/-! ## Parameters, cells, reset and ports -/

/-- The parameters with `zero_for_logical`. -/
def zeroExtending : Params := { params with aluImmExt := .zeroForLogical }

/-- Other numbers: the R-format opcode is `0x3E`, and `add` has the function code 0. -/
def renumbered : Params := { params with opcRtype := 0x3E, opcJ := 0x01, functAdd := 0x00, functJr := 0x3F }

/-- R94: `ori r2,r1,0x8000` under `zero_for_logical`, and `addi` with the same immediate, which is still sign-extended. -/
theorem test_zero_for_logical :
    (nextState (stepWith zeroExtending (atDecode 0x34228000 0 0))).map (·.idex.imm) = some 0x00008000 ∧
      (nextState (stepWith zeroExtending (atDecode 0x20228000 0 0))).map (·.idex.imm) = some 0xFFFF8000 := by decide

/-- Under the other numbers `0xF8221800` is `add r3,r1,r2`: opcode `0x3E`, rs 1, rt 2, rd 3, function code 0. -/
theorem test_other_numbers :
    (nextState (stepWith renumbered (atDecode 0xF8221800 5 6))).map (fun s => (s.idex.ctl, s.idex.rd, s.idex.rsVal)) =
      some (Row.add, 3, 5) := by decide

/-- Both assignments are admissible, and a word encoded with the second is in Decode. -/
theorem witness_StepIsTheCycleOfTheRawWord :
    zeroExtending.wf ∧ renumbered.wf ∧ (atDecode 0xF8221800 5 6).ifid.valid = true ∧
      (atDecode 0xF8221800 5 6).ifid.instr = encodeWith renumbered (.add 1 2 3 0) := by decide

/-- Both values of the parameter, and equal and different registers for the two branches. -/
theorem witness_ImmediatesFollowTheParameter :
    params.wf ∧ zeroExtending.wf ∧ params.aluImmExt ≠ zeroExtending.aluImmExt ∧
    ∀ s ∈ [based 9 9, based 9 8], s.FetchOk ∧ s.DataOk ∧ ¬ s.LoadUse 1 2 :=
  ⟨by decide, by decide, by decide, witness_BranchesResolveInDecode⟩

/-- R340: reset in the middle of a run clears the core and leaves a stored byte where it is. -/
theorem test_reset_keeps_memory :
    (nextState (stepUnderReset true { busy with mem := (⟨64, []⟩ : Memory).setWord 3 7 })).map
      (fun s => (s.pc, RegFile.read s.regs 1, s.memwb, s.mem.wordAt 3)) = some (0x00001000, 0, MemWb.zero, 7) := by decide

/-- R34: one field of IF/ID frozen for one edge, the others clocked. -/
theorem test_field_disable :
    (let c := (IfIdCells.clean ⟨1, 4, true⟩).stage ⟨2, 8, true⟩
     ({ c with instr := c.instr.disable } : IfIdCells).edge.read) = ⟨1, 8, true⟩ := by decide

/-- What a memory of zeros answers to a state with a load in MemoryAccess, inside the image and outside it, and a reset. -/
theorem witness_PortsCarryTheCycle :
    params.wf ∧ Inputs.Answers ⟨false, 0, 0, false, false⟩ busy.mem busy.ports ∧
    (∃ t, portCycle params ⟨false, 0, 0, false, false⟩ busy = .next t) ∧
    Inputs.Answers ⟨false, 0, 9, false, true⟩ (atMemory 0x8C017FFF 256 0).mem (atMemory 0x8C017FFF 256 0).ports ∧
    Inputs.Answers ⟨false, 3, 9, true, true⟩ base.mem ({ base with pc := 256 } : State).ports ∧
    (⟨true, 1, 2, true, true⟩ : Inputs).reset = true := by
  refine ⟨by decide, ⟨by decide, fun _ => by decide, fun _ => by decide, fun _ _ => by decide⟩, ?_,
    ⟨by decide, fun _ => by decide, fun _ => by decide, fun _ h => absurd h (by decide)⟩,
    ⟨by decide, fun h => absurd h (by decide), fun h => absurd h (by decide), fun h => absurd h (by decide)⟩, rfl⟩
  have h : (nextState (portCycle params ⟨false, 0, 0, false, false⟩ busy)).isSome = true := by decide
  obtain ⟨t, ht⟩ := Option.isSome_iff_exists.mp h
  exact ⟨t, nextState_eq_some.mp ht⟩

/-- R319: after `halted` the host reads registers and the memory inside the image; a run that has not ended gives neither. -/
theorem test_host_reads :
    (RunEnd.halted ⟨based 5 9, 7, 2⟩).readRegister 2 = some 9 ∧ (RunEnd.halted ⟨base, 7, 2⟩).readMemory 63 = some 0 ∧
      (RunEnd.halted ⟨base, 7, 2⟩).readMemory 64 = none ∧ (RunEnd.running ⟨base, 7, 2⟩).readRegister 2 = none := by decide

end Sys2Proof.Tests
end

-- Proofs of the scope's statements: the parameters as an argument (00_scope.md rule R5) and the cells of the latches (R9, R34).
section
namespace Sys2Proof
open Machine

/-! ## A word is its fields put together (30_encoding.md rule R91) -/

theorem encodeJ_of_opcode {w : Word} {opc : Sel6} (h : Field.opcode w = opc) : encodeJ opc (Field.addr w) = w := by
  subst h
  unfold encodeJ Field.opcode Field.addr
  rw [extract_append_extract w 0 26 6]
  exact extract_whole w

theorem encodeI_of_opcode {w : Word} {opc : Sel6} (h : Field.opcode w = opc) :
    encodeI opc (Field.rs w) (Field.rt w) (Field.imm w) = w := by
  subst h
  unfold encodeI Field.opcode Field.rs Field.rt Field.imm
  rw [extract_append_extract w 21 5 6, extract_append_extract w 16 5 11, extract_append_extract w 0 16 16]
  exact extract_whole w

theorem encodeR_of_opcode_funct {w : Word} {opc funct : Sel6} (ho : Field.opcode w = opc) (hf : Field.funct w = funct) :
    encodeR opc (Field.rs w) (Field.rt w) (Field.rd w) (Field.shamt w) funct = w := by
  subst ho hf
  unfold encodeR Field.opcode Field.rs Field.rt Field.rd Field.shamt Field.funct
  rw [extract_append_extract w 21 5 6, extract_append_extract w 16 5 11, extract_append_extract w 11 5 16,
    extract_append_extract w 6 5 21, extract_append_extract w 0 6 26]
  exact extract_whole w

/-! ## What the decoder's answer says of the word (R99, R103) -/

theorem encodeWith_of_decodeR {p : Params} {w : Word} {i : Instr} (ho : Field.opcode w = p.opcRtype)
    (h : decodeR p w = .ok i) : encodeWith p i = w := by
  unfold decodeR at h
  repeat' split at h
  all_goals cases h
  all_goals
    rename_i hf
    simp only [encodeWith, encodeR_of_opcode_funct ho hf]

/-- The decoder drops no bit: a decoded word is the word of its instruction (R102). -/
theorem encodeWith_of_decodeWith {p : Params} {w : Word} {i : Instr} (h : decodeWith p w = .ok i) :
    encodeWith p i = w := by
  unfold decodeWith at h
  split at h
  case isTrue ho => exact encodeWith_of_decodeR ho h
  case isFalse =>
    repeat' split at h
    all_goals cases h
    all_goals
      rename_i ho
      simp only [encodeWith, encodeI_of_opcode ho, encodeJ_of_opcode ho]

/-- A word selects no row of the control table: its opcode is that of no row, or it is the R-format one and its function code is
that of no row (R99, R100). -/
def SelectsNoRow (p : Params) (w : Word) : Prop :=
  Field.opcode w ∉ p.opcodes ∨ Field.opcode w = p.opcRtype ∧ Field.funct w ∉ p.functs

theorem selectsNoRow_of_decodeWith_error {p : Params} {w : Word} {r : Reject} (h : decodeWith p w = .error r) :
    SelectsNoRow p w := by
  unfold decodeWith at h
  split at h
  case isTrue ho =>
    refine .inr ⟨ho, ?_⟩
    unfold decodeR at h
    repeat' split at h
    all_goals cases h
    simp_all only [Params.functs, List.mem_cons, List.not_mem_nil, or_self, not_false_eq_true]
  case isFalse =>
    refine .inl ?_
    repeat' split at h
    all_goals cases h
    simp_all only [Params.opcodes, List.mem_cons, List.not_mem_nil, or_self, not_false_eq_true]

namespace Machine

/-! ## The control function on the words the decoder accepts and rejects (R98, R99) -/

/-- Under an admissible assignment the control function gives the word of an instruction the row its meaning uses. The selectors'
distinctness is read in both directions, since the function tests them in an order of its own. -/
theorem controlOf_encodeWith {p : Params} (hp : p.wf) (i : Instr) :
    controlOf p true (Field.opcode (encodeWith p i)) (Field.funct (encodeWith p i)) = rowOf i := by
  obtain ⟨hopc, hfun, -⟩ := hp
  have hopc' := List.nodup_reverse.mpr hopc
  have hfun' := List.nodup_reverse.mpr hfun
  simp only [Params.opcodes, Params.functs, List.reverse_cons, List.reverse_nil, List.nil_append, List.cons_append,
    List.nodup_cons, List.mem_cons, List.not_mem_nil, or_false, not_or] at hopc hfun hopc' hfun'
  cases i <;> simp [encodeWith, controlOf, controlR, rowOf, hopc, hopc', hfun']

/-- A word of no row gets all signals 0, "no instruction". -/
theorem controlOf_of_selectsNoRow {p : Params} {w : Word} (h : SelectsNoRow p w) (valid : Bool) :
    controlOf p valid (Field.opcode w) (Field.funct w) = Controls.zero := by
  obtain h | ⟨ho, h⟩ := h
  · simp only [Params.opcodes, List.mem_cons, List.not_mem_nil, or_false, not_or] at h
    simp [controlOf, h]
  · simp only [Params.functs, List.mem_cons, List.not_mem_nil, or_false, not_or] at h
    simp [controlOf, controlR, ho, h]

/-! ## The step is the cycle of the raw word -/

theorem rawSlot_of_encodeWith {p : Params} (hp : p.wf) {f : IfId} {i : Instr} (hv : f.valid = true)
    (hw : f.instr = encodeWith p i) : rawSlot p f = wordSlot p (encodeWith p i) (rowOf i) := by
  rw [rawSlot, hv, hw, controlOf_encodeWith hp]

/-- With no instruction in Decode, a bubble or a word of no row, the control function gives all signals 0. -/
theorem rawSlot_of_none {p : Params} {s : State} (h : s.instrInDecodeWith p = none) :
    rawSlot p s.ifid = wordSlot p s.ifid.instr Controls.zero := by
  rw [rawSlot]
  cases hv : s.ifid.valid with
  | false => rfl
  | true =>
    cases hw : decodeWith p s.ifid.instr with
    | ok i =>
      rw [State.instrInDecodeWith_eq_some.mpr ⟨hv, hw⟩] at h
      cases h
    | error r => rw [controlOf_of_selectsNoRow (selectsNoRow_of_decodeWith_error hw)]

theorem stepWith_eq_clockCycle_rawSlot {p : Params} (hp : p.wf) (s : State) :
    stepWith p s = clockCycle (rawSlot p s.ifid) s := by
  cases h : s.instrInDecodeWith p with
  | none => rw [stepWith_of_none h, rawSlot_of_none h]
  | some i =>
    obtain ⟨hv, hw⟩ := State.instrInDecodeWith_eq_some.mp h
    rw [stepWith_of_some h, rawSlot_of_encodeWith hp hv (encodeWith_of_decodeWith hw).symm]

/-- Settles O8: the decoder with the meanings, and the control function on the bare bits, give Decode the same slot. -/
theorem stepIsTheCycleOfTheRawWord : Obligations.StepIsTheCycleOfTheRawWord := by
  refine ⟨fun p hp s => ⟨stepWith_eq_clockCycle_rawSlot hp s, fun i hv hw => ?_⟩, step_eq_stepWith, exec_eq_execWith⟩
  rw [stepWith_eq_clockCycle_rawSlot hp, rawSlot_of_encodeWith hp hv hw, execWith_eq]

/-! ## Immediates under both values of ALU_IMM_EXT (R94) -/

/-- The immediate of the two instructions that ALU_IMM_EXT speaks of. -/
theorem stagedImm_of_logical {p : Params} {opc : Sel6} (h : opc = p.opcAndi ∨ opc = p.opcOri) (v : Imm16) :
    stagedImm p opc v = logicalImm p.aluImmExt v := if_pos h

/-- Every other immediate is sign-extended, whatever ALU_IMM_EXT is. -/
theorem stagedImm_of_not_logical {p : Params} {opc : Sel6} (ha : opc ≠ p.opcAndi) (ho : opc ≠ p.opcOri) (v : Imm16) :
    stagedImm p opc v = v.signExtend 32 := if_neg (by simp only [ha, ho, or_self, not_false_eq_true])

/-- The other instructions with an immediate have neither opcode (R97). -/
theorem stagedImm_of_wf {p : Params} (hp : p.wf) {opc : Sel6}
    (h : opc ∈ [p.opcAddi, p.opcSlti, p.opcLw, p.opcSw, p.opcBeq, p.opcBne]) (v : Imm16) :
    stagedImm p opc v = v.signExtend 32 := by
  have hopc := hp.1
  have hopc' := List.nodup_reverse.mpr hopc
  simp only [Params.opcodes, List.reverse_cons, List.reverse_nil, List.nil_append, List.cons_append,
    List.nodup_cons, List.mem_cons, List.not_mem_nil, or_false, not_or] at hopc hopc' h
  obtain rfl | rfl | rfl | rfl | rfl | rfl := h <;>
    exact stagedImm_of_not_logical (by simp [hopc, hopc']) (by simp [hopc, hopc']) v

/-! ## The next state of a cycle that Decode does not hold -/

section
variable {d : Slot} {s : State}

/-- A slot that is not held and does not redirect: the fetched word follows it, and it enters ID/EX (R147). -/
theorem clockCycle_sequel (hf : s.FetchOk) (hd : s.DataOk) (hz : ¬ s.LoadUse d.rs d.rt)
    (hb : (d.ctl.branch && branchTaken d.ctl (s.decodeRead d.rs) (s.decodeRead d.rt)) = false) (hj : d.ctl.jump = false) :
    clockCycle d s = .next (s.sequel (d.toIdEx s.regsAfterWriteback)) := by
  rw [clockCycle_of_ok hf hd, resolve_sequel (State.not_loadUse_iff.mp hz) hb hj]
  rfl

/-- A taken branch that is not held: its target enters `pc`, and IF/ID is flushed (R145). -/
theorem clockCycle_branch (hf : s.FetchOk) (hd : s.DataOk) (hz : ¬ s.LoadUse d.rs d.rt)
    (hb : (d.ctl.branch && branchTaken d.ctl (s.decodeRead d.rs) (s.decodeRead d.rt)) = true) :
    clockCycle d s = .next (s.advance (branchTarget s.ifid.pc d.imm) IfId.zero (d.toIdEx s.regsAfterWriteback)) := by
  rw [clockCycle_of_ok hf hd, resolve_branch (State.not_loadUse_iff.mp hz) hb]

variable {p : Params} {opc : Sel6} {rs rt : RegId} {imm : Imm16} {c : Controls} {v : Word}

/-- An I-format instruction that is not held, does not redirect and takes its immediate as the second ALU operand leaves that
operand in ID/EX (R140, R153). -/
theorem clockCycle_iSlot_operand (hf : s.FetchOk) (hd : s.DataOk) (hz : ¬ s.LoadUse rs rt) (hb : c.branch = false)
    (hj : c.jump = false) (hs : c.aluSrc = true) (hv : stagedImm p opc imm = v) :
    ∃ t, clockCycle (iSlot p opc rs rt imm c) s = .next t ∧ t.idex.ctl.aluSrc = true ∧ t.idex.imm = v :=
  have hnot : (c.branch && branchTaken c (s.decodeRead rs) (s.decodeRead rt)) = false := by rw [hb, Bool.false_and]
  ⟨_, clockCycle_sequel (d := iSlot p opc rs rt imm c) hf hd hz hnot hj, hs, hv⟩

/-- A taken branch that is not held puts its target, with the staged offset, into `pc` (R145). -/
theorem clockCycle_iSlot_target (hf : s.FetchOk) (hd : s.DataOk) (hz : ¬ s.LoadUse rs rt)
    (hb : (c.branch && branchTaken c (s.decodeRead rs) (s.decodeRead rt)) = true) (hv : stagedImm p opc imm = v) :
    ∃ t, clockCycle (iSlot p opc rs rt imm c) s = .next t ∧ t.pc = s.ifid.pc + 4 + 4 * v :=
  ⟨_, clockCycle_branch (d := iSlot p opc rs rt imm c) hf hd hz hb, by rw [← hv]; rfl⟩

end

/-! ## The decisions of the two branches (R144) -/

@[simp] theorem Row.beq_branch : Row.beq.branch = true := rfl
@[simp] theorem Row.bne_branch : Row.bne.branch = true := rfl

@[simp] theorem branchTaken_beq (a b : Word) : branchTaken Row.beq a b = (a == b) := rfl

@[simp] theorem branchTaken_bne (a b : Word) : branchTaken Row.bne a b = (a != b) := by
  simp [branchTaken, Row.bne]

/-! ## The statement about the immediates -/

/-- Settles O52: the staged immediate is the ALU operand of the next cycle and the offset of a branch target. -/
theorem immediatesFollowTheParameter : Obligations.ImmediatesFollowTheParameter := by
  intro p s rs rt imm hp hf hd hz signed logical
  have hlogical {opc : Sel6} (h : opc = p.opcAndi ∨ opc = p.opcOri) : stagedImm p opc imm = logical :=
    stagedImm_of_logical h imm
  have hsigned {opc : Sel6} (h : opc ∈ [p.opcAddi, p.opcSlti, p.opcLw, p.opcSw, p.opcBeq, p.opcBne]) :
      stagedImm p opc imm = signed :=
    stagedImm_of_wf hp h imm
  refine ⟨fun i hi => ?_, fun i hi => ?_, fun h => ?_, fun h => ?_⟩
  · simp only [List.mem_cons, List.not_mem_nil, or_false] at hi
    obtain rfl | rfl := hi
    · exact clockCycle_iSlot_operand hf hd hz rfl rfl rfl (hlogical (.inl rfl))
    · exact clockCycle_iSlot_operand hf hd hz rfl rfl rfl (hlogical (.inr rfl))
  · simp only [List.mem_cons, List.not_mem_nil, or_false] at hi
    obtain rfl | rfl | rfl | rfl := hi <;>
      exact clockCycle_iSlot_operand hf hd hz rfl rfl rfl (hsigned (by simp))
  · exact clockCycle_iSlot_target (c := Row.beq) hf hd hz (by simp [h]) (hsigned (by simp))
  · exact clockCycle_iSlot_target (c := Row.bne) hf hd hz (by simp [h]) (hsigned (by simp))

/-! ## A latch after the clock edge, field by field (10_state.md rule R34) -/

theorem IfIdCells.edge_with_instr (c : IfIdCells) (x : Cell Word) :
    ({ c with instr := x }).edge.read = { c.edge.read with instr := x.edge.read } := rfl
theorem IfIdCells.edge_with_pc (c : IfIdCells) (x : Cell Word) :
    ({ c with pc := x }).edge.read = { c.edge.read with pc := x.edge.read } := rfl
theorem IfIdCells.edge_with_valid (c : IfIdCells) (x : Cell Bool) :
    ({ c with valid := x }).edge.read = { c.edge.read with valid := x.edge.read } := rfl

theorem ControlCells.edge_with_aluOp (c : ControlCells) (x : Cell (BitVec 3)) :
    ({ c with aluOp := x }).edge.read = { c.edge.read with aluOp := x.edge.read } := rfl
theorem MemWbCells.edge_with_rt (c : MemWbCells) (x : Cell RegId) :
    ({ c with rt := x }).edge.read = { c.edge.read with rt := x.edge.read } := rfl
theorem MemWbCells.edge_with_ctl (c : MemWbCells) (x : ControlCells) :
    ({ c with ctl := x }).edge.read = { c.edge.read with ctl := x.edge.read } := rfl
theorem MemWbCells.edge_with_memResult (c : MemWbCells) (x : Cell Word) :
    ({ c with memResult := x }).edge.read = { c.edge.read with memResult := x.edge.read } := rfl

/-- The bulk forward of a latch at a cycle boundary into another one (R9, R37): the fields the source has, and no other. -/
theorem ExMemCells.edge_forward_clean (l : ExMem) (m : IdEx) :
    ((ExMemCells.clean l).forward (.clean m)).edge = .clean ⟨m, l.aluResult, l.writeData⟩ := rfl

/-- The same into MEM/WB, whose memory result is kept (R38). -/
theorem MemWbCells.edge_forward_clean (l : MemWb) (m : ExMem) :
    ((MemWbCells.clean l).forward (.clean m)).edge = .clean ⟨m, l.memResult⟩ := rfl

/-- Settles O53: an edge clocks each field by that field's cell alone, whatever the other cells do. -/
theorem latchFieldsAreCellsOfTheirOwn : Obligations.LatchFieldsAreCellsOfTheirOwn := by
  refine ⟨fun f g => ⟨?_, ?_, ?_, ?_⟩, fun l rt op v => ⟨?_, ?_, ?_⟩, fun l m => ?_, fun l m => ?_, Clocked.isClean_edge⟩
  · rw [IfIdCells.edge_with_instr, IfIdCells.edge_stage_clean, Cell.edge_disable]
    rfl
  · rw [IfIdCells.edge_with_pc, IfIdCells.edge_stage_clean, Cell.edge_disable]
    rfl
  · rw [IfIdCells.edge_with_valid, IfIdCells.edge_stage_clean, Cell.edge_disable]
    rfl
  · rw [IfIdCells.edge_disable]
    rfl
  · rw [MemWbCells.edge_with_rt, MemWbCells.edge_clean]
    rfl
  · rw [MemWbCells.edge_with_ctl, ControlCells.edge_with_aluOp]
    rfl
  · rw [MemWbCells.edge_with_memResult, MemWbCells.edge_clean]
    rfl
  · rw [MemWbCells.edge_forward_clean, MemWbCells.read_clean]
  · rw [ExMemCells.edge_forward_clean, ExMemCells.read_clean]

end Machine
end Sys2Proof
end

-- Proofs of the statements about the state (10_state.md): the cells (R20 to R22), register 0 (R24), and the invariant of the
-- reachable states (R46).
section
namespace Sys2Proof.Machine

/-! ## The cell (R20 to R22) -/

/-- Of several stagings the last one stands (R9). -/
theorem Cell.stage_foldl_stage {α : Type} (staged : List α) (c : Cell α) (v : α) :
    (staged.foldl Cell.stage c).stage v = c.stage v := by
  induction staged generalizing c with
  | nil => rfl
  | cons w staged ih => rw [List.foldl_cons, ih, Cell.stage_stage]

/-- Settles O13: with nothing staged the cell is clean; otherwise it is the clean cell with its last staging. -/
theorem cellReadsCommittedUntilTheEdge : Obligations.CellReadsCommittedUntilTheEdge := by
  intro α v staged
  obtain rfl | ⟨earlier, w, rfl⟩ := List.eq_nil_or_concat' staged
  · exact ⟨rfl, rfl⟩
  · simp only [List.foldl_concat, Cell.stage_foldl_stage, List.getLast?_concat]
    exact ⟨rfl, rfl⟩

/-- Settles O14: a disabled edge leaves a clean cell with the old value. -/
theorem disableLastsOneEdge : Obligations.DisableLastsOneEdge := by
  intro α v a b
  simp only [Cell.edge_disable, Cell.read_stage, Cell.read_clean, Cell.edge_clean, Cell.edge_stage_clean, and_self]

/-! ## Register 0 (R24) -/

theorem RegFile.read_zero_commit (x : RegFile) (d : RegId) (v : Word) :
    RegFile.read (RegFile.commit x d v) 0 = RegFile.read x 0 := by
  rw [RegFile.read_commit, if_neg (fun e => e.2 e.1.symm)]

theorem State.read_zero_regsAfterWriteback (s : State) : RegFile.read s.regsAfterWriteback 0 = RegFile.read s.regs 0 := by
  have h : s.memwb.supplies 0 = false := Slot.supplies_zero _
  rw [State.read_regsAfterWriteback, h]
  rfl

theorem RegFile.read_zero_foldl_commit (commits : List (RegId × Word)) (x : RegFile) :
    RegFile.read (commits.foldl (fun y c => RegFile.commit y c.1 c.2) x) 0 = RegFile.read x 0 := by
  induction commits generalizing x with
  | nil => rfl
  | cons c commits ih => rw [List.foldl_cons, ih, RegFile.read_zero_commit]

/-- Settles O44: no commit reaches register 0, a step's only register write is a commit, and no slot supplies register 0. -/
theorem registerZeroStaysZero : Obligations.RegisterZeroStaysZero := by
  refine ⟨fun x commits h => (RegFile.read_zero_foldl_commit commits x).trans h, fun s t hstep h => ?_, forward_zero⟩
  obtain ⟨-, -, pc, ifid, idex, rfl⟩ := step_advance hstep
  exact (State.read_zero_regsAfterWriteback s).trans h

/-! ## Addresses that are multiples of 4 (R46 (b)) -/

theorem aligned_add_four {a : Word} (h : a.toNat % 4 = 0) : (a + 4).toNat % 4 = 0 := by
  bv_omega

theorem fetchPc_aligned {pc : Word} (h : pc.toNat % 4 = 0) (w : Word) : (fetchPc pc w).toNat % 4 = 0 := by
  unfold fetchPc
  split
  · exact h
  · exact aligned_add_four h

theorem branchTarget_aligned {pc : Word} (h : pc.toNat % 4 = 0) (imm : Word) : (branchTarget pc imm).toNat % 4 = 0 := by
  unfold branchTarget
  bv_omega

theorem jumpTarget_aligned (addr : Addr26) : (jumpTarget addr).toNat % 4 = 0 := by
  have h : (jumpTarget addr).toNat = ((0 : BitVec 4) ++ addr).toNat <<< 2 ||| 0 := BitVec.toNat_append _ _
  rw [h, Nat.or_zero, Nat.shiftLeft_eq]
  omega

theorem misaligned_eq_false {a : Word} : misaligned a = false ↔ a.toNat % 4 = 0 := by
  rw [misaligned, bne_eq_false_iff_eq]

/-! ## The invariant over one cycle (R46) -/

theorem zero_mem_controlRows : Controls.zero ∈ controlRows := by decide

/-- What Decode's response owes the invariant of the next state: the clauses of R46 about `pc`, IF/ID and ID/EX. The load that
clause (e) finds in EX/MEM after the edge is the one in ID/EX before it. -/
structure FrontEnd.KeepsInv (front : FrontEnd) (s : State) : Prop where
  pcAligned : front.pc.toNat % 4 = 0
  ifidPcAligned : front.ifid.pc.toNat % 4 = 0
  idexRow : front.idex.ctl ∈ controlRows
  bubbleAfterNoLoad : front.ifid.valid = false → front.idex.ctl.memRead = false
  loadNotNamed : s.idex.ctl.memRead = true → s.idex.rt ≠ 0 → front.idex.rs ≠ s.idex.rt ∧ front.idex.rt ≠ s.idex.rt

/-- Behind Decode a cycle moves the control signals one latch on and keeps register 0 and the memory's canonical form, whatever
Decode answered. -/
theorem State.Inv.advance {s : State} (hi : s.Inv) (hd : s.DataOk) {front : FrontEnd} (hfront : front.KeepsInv s) :
    (s.advance front.pc front.ifid front.idex).Inv where
  zeroReg := (State.read_zero_regsAfterWriteback s).trans hi.zeroReg
  pcAligned := hfront.pcAligned
  ifidPcAligned := hfront.ifidPcAligned
  idexRow := hfront.idexRow
  exmemRow := hi.idexRow
  memwbRow := hi.exmemRow
  bubbleAfterNoLoad := hfront.bubbleAfterNoLoad
  loadNotNamed := hfront.loadNotNamed
  memWf := State.memAfter_wf hi.memWf hd

/-- A word that the load-use check lets pass names no register of the load in ID/EX (R142). -/
theorem loadNotNamed_of_no_hazard {e : IdEx} {rs rt : RegId} (h : hazard e rs rt = false) (hl : e.ctl.memRead = true) :
    rs ≠ e.rt ∧ rt ≠ e.rt := by
  rw [hazard, hl, Bool.true_and, Bool.or_eq_false_iff, beq_eq_false_iff_ne, beq_eq_false_iff_ne] at h
  exact ⟨h.1.symm, h.2.symm⟩

theorem controlRows_transfer_no_load {c : Controls} (h : c ∈ controlRows) (ht : c.branch = true ∨ c.jump = true) :
    c.memRead = false := by
  by_contra hl
  obtain ⟨-, -, -, hb, hj, -⟩ := (controlRows_facts c h).2 (Bool.not_eq_false _ ▸ hl)
  simp [hb, hj] at ht

section
variable {d : Slot} {x : RegFile} {s : State} {front : FrontEnd}

/-- The stall holds `pc` and IF/ID and puts a bubble into ID/EX, which names register 0 alone. -/
theorem keepsInv_stall (hi : s.Inv) : FrontEnd.KeepsInv ⟨s.pc, s.ifid, IdEx.zero⟩ s where
  pcAligned := hi.pcAligned
  ifidPcAligned := hi.ifidPcAligned
  idexRow := zero_mem_controlRows
  bubbleAfterNoLoad _ := rfl
  loadNotNamed _ hrt := ⟨hrt.symm, hrt.symm⟩

/-- A redirect flushes IF/ID; the transfer that enters ID/EX is no load. -/
theorem keepsInv_redirect (hrow : d.ctl ∈ controlRows) (hz : hazard s.idex d.rs d.rt = false)
    (ht : d.ctl.branch = true ∨ d.ctl.jump = true) {target : Word} (htarget : target.toNat % 4 = 0) :
    FrontEnd.KeepsInv ⟨target, IfId.zero, d.toIdEx x⟩ s where
  pcAligned := htarget
  ifidPcAligned := rfl
  idexRow := hrow
  bubbleAfterNoLoad _ := controlRows_transfer_no_load hrow ht
  loadNotNamed hl _ := loadNotNamed_of_no_hazard hz hl

/-- With neither, the fetched word enters IF/ID, its marker set. -/
theorem keepsInv_sequel (hi : s.Inv) (hrow : d.ctl ∈ controlRows) (hz : hazard s.idex d.rs d.rt = false) (w : Word) :
    FrontEnd.KeepsInv ⟨fetchPc s.pc w, fetchIfId s.pc w, d.toIdEx x⟩ s where
  pcAligned := fetchPc_aligned hi.pcAligned w
  ifidPcAligned := hi.pcAligned
  idexRow := hrow
  bubbleAfterNoLoad hv := nomatch hv
  loadNotNamed hl _ := loadNotNamed_of_no_hazard hz hl

theorem resolve_keepsInv (hi : s.Inv) (hrow : d.ctl ∈ controlRows) {w : Word} (h : resolve d x s w = .ok front) :
    front.KeepsInv s := by
  obtain ⟨-, rfl⟩ | ⟨hz, hb, -, rfl⟩ | ⟨hz, hj, -, hm, rfl⟩ | ⟨hz, hj, -, rfl⟩ | ⟨hz, -, -, rfl⟩ := resolve_cases h
  · exact keepsInv_stall hi
  · exact keepsInv_redirect hrow hz (.inl hb) (branchTarget_aligned hi.ifidPcAligned _)
  · exact keepsInv_redirect hrow hz (.inr hj) (misaligned_eq_false.mp hm)
  · exact keepsInv_redirect hrow hz (.inr hj) (jumpTarget_aligned _)
  · exact keepsInv_sequel hi hrow hz w

end

theorem clockCycle_keeps_inv {d : Slot} {s t : State} (hi : s.Inv) (hrow : d.ctl ∈ controlRows)
    (h : clockCycle d s = .next t) : t.Inv := by
  obtain ⟨-, hd, front, hfront, rfl⟩ := clockCycle_next h
  exact hi.advance hd (resolve_keepsInv hi hrow hfront)

/-- Settles O45: a step is the cycle of some word with the signals of a row, and such a cycle keeps the invariant. -/
theorem everyStepKeepsTheInvariant : Obligations.EveryStepKeepsTheInvariant := by
  intro s t hi h
  obtain ⟨c, hrow, w, hw⟩ := step_slot s
  exact clockCycle_keeps_inv (d := wordSlot params w c) hi hrow (hw ▸ h)

/-! ## The invariant at reset (R43, R343) -/

/-- Reset gives the invariant to a core in any state: what it leaves alone is the memory, which only has to be in its form. -/
theorem State.resetCore_inv {s : State} (h : s.mem.wf) : s.resetCore.Inv where
  zeroReg := (by decide : RegFile.read State.reset.regs 0 = 0)
  pcAligned := (by decide : Config.pcReset.toNat % 4 = 0)
  ifidPcAligned := rfl
  idexRow := zero_mem_controlRows
  exmemRow := zero_mem_controlRows
  memwbRow := zero_mem_controlRows
  bubbleAfterNoLoad _ := rfl
  loadNotNamed hl := nomatch hl
  memWf := h

/-- Settles O46: the state after reset is the reset of itself, and its memory lists no byte. -/
theorem resetHasTheInvariant : Obligations.ResetHasTheInvariant :=
  State.resetCore_inv (s := State.reset) (by decide)

/-- Settles O47: loading an image and reset leave a memory in canonical form. -/
theorem everyLoadedImageHasTheInvariant : Obligations.EveryLoadedImageHasTheInvariant :=
  fun bytes => State.resetCore_inv (loadImage_wf bytes)

end Sys2Proof.Machine
end

-- The cycle with its staging is the clock cycle (10_state.md rules R20, R34; 40_pipeline_cycle.md rules R120, R122, R170).
section
namespace Sys2Proof.Machine

/-! ## The state that a Fatal behind Fetch leaves (60_exceptions.md rule R307) -/

/-- The committed state once Writeback has made its register write. -/
abbrev State.writtenBack (s : State) : State := { s with regs := s.regsAfterWriteback }

section
variable {s : State} {f : Fault}

theorem State.afterFatal_of_resolve_error {d : Slot} {x : RegFile} {w : Word} (h : resolve d x s w = .error f) :
    s.afterFatal f = s.writtenBack := by
  unfold resolve at h
  repeat' split at h
  all_goals cases h
  rfl

theorem State.afterFatal_of_loadResult_error (h : s.loadResult = .error f) : s.afterFatal f = s.writtenBack := by
  unfold State.loadResult at h
  repeat' split at h
  all_goals cases h
  rfl

theorem State.afterFatal_of_storeResult_error (h : s.storeResult = .error f) : s.afterFatal f = s.writtenBack := by
  unfold State.storeResult at h
  repeat' split at h
  all_goals cases h
  rfl

end

namespace Clocked

/-! ## Fetch and Writeback on cells (R130, R131, R160) -/

/-- The cell of `pc` after Fetch has read the word `w`: staged, unless `w` is the canonical halt word. -/
def fetchedPc (pc w : Word) : Cell Word := if w = Config.haltWord then .clean pc else (Cell.clean pc).stage (pc + 4)

@[simp] theorem fetchedPc_read (pc w : Word) : (fetchedPc pc w).read = pc := by
  unfold fetchedPc
  split <;> rfl

@[simp] theorem fetchedPc_edge (pc w : Word) : (fetchedPc pc w).edge = .clean (fetchPc pc w) := by
  unfold fetchedPc fetchPc
  split <;> rfl

/-- The core after Fetch has read the word `w`. -/
def fetched (s : State) (w : Word) : Clocked :=
  { start s with
    pc := fetchedPc s.pc w
    ifid := (IfIdCells.clean s.ifid).stage (fetchIfId s.pc w) }

theorem fetch_start_of_read_none {s : State} (h : s.mem.read s.pc = none) :
    (start s).fetch = .error (.outOfBounds .fetch s.pc, start s) := by
  have h : (start s).mem.read (start s).pc.read = none := h
  rw [fetch, h]
  rfl

theorem fetch_start_of_read_some {s : State} {w : Word} (h : s.mem.read s.pc = some w) :
    (start s).fetch = .ok (fetched s w) := by
  have h : (start s).mem.read (start s).pc.read = some w := h
  rw [fetch, h]
  unfold fetched fetchedPc
  dsimp only
  split <;> rfl

/-- The core when Decode begins: Writeback has committed its register (R160). -/
def beforeDecode (s : State) (w : Word) : Clocked := { fetched s w with regs := s.regsAfterWriteback }

theorem writeback_fetched (s : State) (w : Word) : (fetched s w).writeback = beforeDecode s w := by
  unfold beforeDecode State.regsAfterWriteback
  by_cases h : s.memwb.ctl.regWrite = true
  · rw [if_pos h]
    exact if_pos h
  · rw [if_neg h]
    exact if_neg h

theorem beforeDecode_committed (s : State) (w : Word) : (beforeDecode s w).committed = s.writtenBack := by
  rw [committed, beforeDecode, fetched, fetchedPc_read]
  rfl

/-! ## Decode on cells (R140 to R147) -/

/-- The core when Decode has answered `front`: no committed value has changed but the register that Writeback wrote, the edge will
commit `front`, and nothing is staged behind ID/EX. -/
structure HasDecoded (c : Clocked) (s : State) (front : FrontEnd) : Prop where
  committed : c.committed = s.writtenBack
  pc : c.pc.edge = .clean front.pc
  ifid : c.ifid.edge = .clean front.ifid
  idex : c.idex.edge = .clean front.idex
  exmem : c.exmem = .clean s.exmem
  memwb : c.memwb = .clean s.memwb

/-- The cells agree with Decode's response: they hold it, or they raise the same Fatal with no committed value changed but the
register that Writeback wrote. -/
def AgreesWith (s : State) (result : Clocked.Result) : Except Fault FrontEnd → Prop
  | .ok front => ∃ c, result = .ok c ∧ c.HasDecoded s front
  | .error f => ∃ c, result = .error (f, c) ∧ c.committed = s.writtenBack

section
variable (d : Slot) (s : State) (w : Word)

/-- Part 1 of Decode, on the cells as Fetch and Writeback leave them. -/
def decodedPart1 : Clocked :=
  (beforeDecode s w).decodePart1 d (RegFile.read s.regsAfterWriteback d.rs) (RegFile.read s.regsAfterWriteback d.rt)

theorem decodedPart1_committed : (decodedPart1 d s w).committed = s.writtenBack := beforeDecode_committed s w

theorem hasDecoded_stall : (decodedPart1 d s w).stall.HasDecoded s ⟨s.pc, s.ifid, IdEx.zero⟩ where
  committed := decodedPart1_committed d s w
  pc := congrArg Cell.clean (fetchedPc_read s.pc w)
  ifid := rfl
  idex := rfl
  exmem := rfl
  memwb := rfl

theorem hasDecoded_redirect (target : Word) :
    ((decodedPart1 d s w).redirect target).HasDecoded s ⟨target, IfId.zero, d.toIdEx s.regsAfterWriteback⟩ where
  committed := decodedPart1_committed d s w
  pc := rfl
  ifid := rfl
  idex := rfl
  exmem := rfl
  memwb := rfl

theorem hasDecoded_sequel :
    (decodedPart1 d s w).HasDecoded s ⟨fetchPc s.pc w, fetchIfId s.pc w, d.toIdEx s.regsAfterWriteback⟩ where
  committed := decodedPart1_committed d s w
  pc := fetchedPc_edge s.pc w
  ifid := rfl
  idex := rfl
  exmem := rfl
  memwb := rfl

/-- Decode on cells meets the conditions of `resolve` in the same order: the register values and the latches it reads are the
committed ones. -/
theorem decode_beforeDecode :
    (beforeDecode s w).decode d =
      let a := RegFile.read s.regsAfterWriteback d.rs
      if hazard s.idex d.rs d.rt then .ok (decodedPart1 d s w).stall
      else if d.ctl.branch && branchTaken d.ctl a (RegFile.read s.regsAfterWriteback d.rt) then
        .ok ((decodedPart1 d s w).redirect (branchTarget s.ifid.pc d.imm))
      else if d.ctl.jump then
        if d.ctl.jumpSrc then
          if misaligned a then .error (.misalignedJumpRegister a, decodedPart1 d s w) else .ok ((decodedPart1 d s w).redirect a)
        else .ok ((decodedPart1 d s w).redirect (jumpTarget d.addr))
      else .ok (decodedPart1 d s w) := rfl

theorem decode_agreesWith : AgreesWith s ((beforeDecode s w).decode d) (resolve d s.regsAfterWriteback s w) := by
  rw [decode_beforeDecode]
  unfold resolve
  dsimp only
  split
  · exact ⟨_, rfl, hasDecoded_stall d s w⟩
  split
  · exact ⟨_, rfl, hasDecoded_redirect d s w _⟩
  split
  · split
    · split
      · exact ⟨_, rfl, decodedPart1_committed d s w⟩
      · exact ⟨_, rfl, hasDecoded_redirect d s w _⟩
    · exact ⟨_, rfl, hasDecoded_redirect d s w _⟩
  · exact ⟨_, rfl, hasDecoded_sequel d s w⟩

end

/-! ## Execute and MemoryAccess on cells (R150 to R158) -/

/-- The core after Execute and the bulk forward into MEM/WB. -/
def forwarded (c : Clocked) : Clocked := { c.execute with memwb := c.execute.memwb.forward c.execute.exmem }

/-- The cell of `MEMWB.mem_result` after MemoryAccess's read of `v`: staged only for a load. -/
def loadedResult (c : Clocked) (v : Word) : Cell Word :=
  if c.exmem.ctl.memRead.read then c.memwb.memResult.stage v else c.memwb.memResult

/-- The core after MemoryAccess's read of `v`. -/
def loaded (c : Clocked) (v : Word) : Clocked := { c with memwb := { c.memwb with memResult := c.loadedResult v } }

theorem loaded_committed (c : Clocked) (v : Word) : (c.loaded v).committed = c.committed := by
  unfold loaded loadedResult
  split <;> rfl

/-- MemoryAccess's read on cells answers as the read of the committed state does. -/
theorem load_eq (c : Clocked) :
    c.load = match c.committed.loadResult with
      | .error f => .error (f, c)
      | .ok v => .ok (c.loaded v) := by
  by_cases hr : c.exmem.ctl.memRead.read = true
  · have hcell : c.loadedResult = c.memwb.memResult.stage := funext fun v => if_pos hr
    have hresult : c.committed.loadResult = match c.mem.read c.exmem.aluResult.read with
        | some v => .ok v
        | none => .error (.outOfBounds .load c.exmem.aluResult.read) := if_pos hr
    rw [load, if_pos hr, hresult]
    unfold loaded
    rw [hcell]
    cases c.mem.read c.exmem.aluResult.read <;> rfl
  · have hcell : c.loadedResult c.memwb.memResult.read = c.memwb.memResult := if_neg hr
    have hresult : c.committed.loadResult = .ok c.memwb.memResult.read := if_neg hr
    rw [load, if_neg hr, hresult]
    show _ = Except.ok (c.loaded _)
    rw [loaded, hcell]

/-- So does its write. -/
theorem store_eq (c : Clocked) :
    c.store = match c.committed.storeResult with
      | .error f => .error (f, c)
      | .ok m => .ok { c with mem := m } := by
  by_cases hw : c.exmem.ctl.memWrite.read = true
  · have hresult : c.committed.storeResult = match c.mem.write c.exmem.aluResult.read c.exmem.writeData.read with
        | some m => .ok m
        | none => .error (.outOfBounds .store c.exmem.aluResult.read) := if_pos hw
    rw [store, if_pos hw, hresult]
    cases c.mem.write c.exmem.aluResult.read c.exmem.writeData.read <;> rfl
  · have hresult : c.committed.storeResult = .ok c.mem := if_neg hw
    rw [store, if_neg hw, hresult]

section
variable {c : Clocked} {s : State} {front : FrontEnd} {f : Fault} {v : Word} {m : Memory} (h : c.HasDecoded s front)
include h

theorem HasDecoded.memoryAccess_execute :
    c.execute.memoryAccess = match s.loadResult with
      | .error f => .error (f, c.forwarded)
      | .ok v => (c.forwarded.loaded v).store := by
  have hl : c.forwarded.committed.loadResult = s.loadResult :=
    congrArg State.loadResult (a₂ := s.writtenBack) h.committed
  show c.forwarded.load.bind store = _
  rw [load_eq, hl]
  cases s.loadResult <;> rfl

theorem HasDecoded.loaded_committed (v : Word) : (c.forwarded.loaded v).committed = s.writtenBack :=
  (Clocked.loaded_committed _ v).trans h.committed

theorem HasDecoded.store_loaded (v : Word) :
    (c.forwarded.loaded v).store = match s.storeResult with
      | .error f => .error (f, c.forwarded.loaded v)
      | .ok m => .ok { c.forwarded.loaded v with mem := m } := by
  have hs : (c.forwarded.loaded v).committed.storeResult = s.storeResult :=
    congrArg State.storeResult (a₂ := s.writtenBack) (h.loaded_committed v)
  rw [store_eq, hs]

/-- The clock edge commits Execute's staging into EX/MEM. -/
theorem HasDecoded.exmem_edge_forwarded : c.forwarded.exmem.edge = .clean s.execute := by
  show (c.exmem.stage c.committed.execute).edge = _
  rw [h.exmem, h.committed]
  rfl

/-- What MemoryAccess read is what the clock edge commits; without a load that is the value kept (R38). -/
theorem HasDecoded.loadedResult_edge (hl : s.loadResult = .ok v) : (c.forwarded.loadedResult v).edge = .clean v := by
  have hread : c.forwarded.exmem.ctl.memRead.read = s.exmem.ctl.memRead := congrArg (·.exmem.ctl.memRead) h.committed
  have hcell : c.forwarded.memwb.memResult = .clean s.memwb.memResult := congrArg MemWbCells.memResult h.memwb
  rw [loadedResult, hread, hcell]
  split <;> rename_i hr
  · exact Cell.edge_stage_clean _ _
  · rw [State.loadResult, if_neg hr] at hl
    cases hl
    exact Cell.edge_clean _

theorem HasDecoded.memwb_edge_loaded (hl : s.loadResult = .ok v) :
    (c.forwarded.loaded v).memwb.edge = .clean ⟨s.exmem, v⟩ := by
  show (⟨(c.memwb.toExMemCells.stage c.exmem.read).edge, (c.forwarded.loadedResult v).edge⟩ : MemWbCells) = _
  rw [h.memwb, h.exmem, h.loadedResult_edge hl]
  rfl

theorem HasDecoded.edge_committed (hl : s.loadResult = .ok v) :
    ({ c.forwarded.loaded v with mem := m } : Clocked).edge.committed =
      { pc := front.pc, regs := s.regsAfterWriteback, ifid := front.ifid, idex := front.idex, exmem := s.execute,
        memwb := ⟨s.exmem, v⟩, mem := m } := by
  have hregs : c.regs = s.regsAfterWriteback := congrArg State.regs h.committed
  show (⟨c.pc.edge.read, c.regs, c.ifid.edge.read, c.idex.edge.read, c.forwarded.exmem.edge.read,
    (c.forwarded.loaded v).memwb.edge.read, m⟩ : State) = _
  rw [h.pc, h.ifid, h.idex, h.exmem_edge_forwarded, h.memwb_edge_loaded hl, hregs]
  rfl

end
end Clocked

/-! ## The whole cycle (R120, R122, R170) -/

theorem stagedCycle_of_read_none {d : Slot} {s : State} (hw : s.mem.read s.pc = none) :
    stagedCycle d s = .error (.outOfBounds .fetch s.pc, Clocked.start s) := by
  rw [stagedCycle, Clocked.phase1, Clocked.fetch_start_of_read_none hw]
  rfl

theorem stagedCycle_of_read_some {d : Slot} {s : State} {w : Word} (hw : s.mem.read s.pc = some w) :
    stagedCycle d s =
      (((Clocked.beforeDecode s w).decode d).bind fun c => c.execute.memoryAccess).map fun c => c.edge.committed := by
  rw [stagedCycle, Clocked.phase1, Clocked.fetch_start_of_read_some hw, ← Clocked.writeback_fetched]
  rfl

/-- Settles O10: stage by stage, the cells raise the Fatal of the committed state, or hold what the edge has to commit. -/
theorem stagedCycleIsTheClockCycle : Obligations.StagedCycleIsTheClockCycle := by
  intro d s
  cases hw : s.mem.read s.pc with
  | none =>
    rw [stagedCycle_of_read_none hw]
    exact ⟨by simp only [clockCycle, hw], Clocked.start_committed s⟩
  | some w =>
    rw [stagedCycle_of_read_some hw]
    have hdecode := Clocked.decode_agreesWith d s w
    cases hr : resolve d s.regsAfterWriteback s w with
    | error f =>
      rw [hr] at hdecode
      obtain ⟨c, hc, hcommitted⟩ := hdecode
      rw [hc]
      exact ⟨by simp only [clockCycle, hw, hr], hcommitted.trans (State.afterFatal_of_resolve_error hr).symm⟩
    | ok front =>
      rw [hr] at hdecode
      obtain ⟨c, hc, h⟩ := hdecode
      rw [hc, Except.bind, h.memoryAccess_execute]
      cases hl : s.loadResult with
      | error f =>
        exact ⟨by simp only [clockCycle, hw, hr, hl], h.committed.trans (State.afterFatal_of_loadResult_error hl).symm⟩
      | ok v =>
        dsimp only
        rw [h.store_loaded]
        cases hs : s.storeResult with
        | error f =>
          exact ⟨by simp only [clockCycle, hw, hr, hl, hs],
            (h.loaded_committed v).trans (State.afterFatal_of_storeResult_error hs).symm⟩
        | ok m =>
          show clockCycle d s = .next ({ c.forwarded.loaded v with mem := m } : Clocked).edge.committed
          rw [h.edge_committed hl]
          simp only [clockCycle, hw, hr, hl, hs]

end Sys2Proof.Machine
end

-- Proofs of the statements about the memory (20_memory.md): addressing and accesses (R60 to R62), the loader (R64), the order of
-- fetch and store (R72), and the loads and stores in program order (R69; 44_load_store.md rules R260 to R264).
section
namespace Sys2Proof.Machine

/-! ## The word index (R60) -/

theorem toNat_ushiftRight_two (a : Word) : (a >>> 2).toNat = wordIndex a := by
  rw [BitVec.toNat_ushiftRight, Nat.shiftRight_eq_div_pow]
  rfl

theorem ushiftRight_two_inj {a b : Word} : a >>> 2 = b >>> 2 ↔ wordIndex a = wordIndex b := by
  rw [← BitVec.toNat_inj, toNat_ushiftRight_two, toNat_ushiftRight_two]

theorem Memory.read_congr (m : Memory) {a b : Word} (h : wordIndex a = wordIndex b) : m.read a = m.read b := by
  simp only [Memory.read, Memory.inBounds, h]

theorem Memory.write_congr (m : Memory) {a b : Word} (h : wordIndex a = wordIndex b) (v : Word) : m.write a v = m.write b v := by
  simp only [Memory.write, Memory.inBounds, h]

/-- Settles O40: a read asks for the word index alone, which is the address shifted by 2. -/
theorem accessesUseTheWordIndex : Obligations.AccessesUseTheWordIndex := by
  intro m a
  rw [toNat_ushiftRight_two]
  refine ⟨fun h => Memory.read_eq_none.mpr (Nat.not_lt.mpr h), fun h => Memory.read_eq_some.mpr ⟨h, rfl⟩, fun b v h => ?_⟩
  have hindex := ushiftRight_two_inj.mp h
  exact ⟨m.read_congr hindex, m.write_congr hindex v⟩

/-! ## Read after write (R61, R62) -/

theorem Memory.read_setWord {m : Memory} (hm : m.wf) {k : Nat} (hk : k < m.words) (v b : Word) :
    (m.setWord k v).read b = if wordIndex b = k then some v else m.read b := by
  simp only [Memory.read, Memory.inBounds, Memory.setWord_words, Memory.wordAt_setWord hm]
  by_cases h : wordIndex b = k
  · simp only [h, hk, if_true]
  · simp only [h, if_false]

/-- Settles O39: `MemWrite` inside the image stores a whole word, and a read finds that word at its own index alone. -/
theorem readsReturnTheLatestWrite : Obligations.ReadsReturnTheLatestWrite := by
  intro m a v hm
  rw [toNat_ushiftRight_two]
  refine ⟨fun h => Memory.write_eq_none.mpr (Nat.not_lt.mpr h), fun h =>
    ⟨_, Memory.write_eq_some.mpr ⟨h, rfl⟩, Memory.setWord_words .., fun b => ?_⟩⟩
  rw [Memory.read_setWord hm h]
  exact if_congr ushiftRight_two_inj.symm rfl rfl

/-! ## The loader (R64) -/

/-- Settles O5: the four bytes of a word, put together by the decoder in the loader's order, are the word. -/
theorem bytesDecodeAsTheirWord : Obligations.BytesDecodeAsTheirWord := by
  intro w rest i h
  show (decode (wordOfBytes _ _ _ _)).map (·, rest) = _
  rw [wordOfBytes_extract, h]
  rfl

/-- The byte at offset `i` of a byte stream that starts at address `a`. -/
theorem lookupByte_imageCells (bytes : List Byte) (a i : Nat) (h : i < bytes.length) :
    lookupByte (imageCells a bytes) (a + i) = bytes[i] := by
  induction bytes generalizing a i with
  | nil => exact absurd h (Nat.not_lt_zero i)
  | cons b rest ih =>
    rw [imageCells]
    cases i with
    | zero =>
      split <;> rename_i hb
      · exact (lookupByte_of_lt fun c hc => (imageCells_bound hc).1).trans hb.symm
      · exact if_pos rfl
    | succ i =>
      have hrest := ih (a + 1) i (Nat.lt_of_succ_lt_succ h)
      rw [Nat.add_right_comm, Nat.add_assoc] at hrest
      split
      · exact hrest
      · exact (if_neg (by omega)).trans hrest

theorem byteAt_loadImage {bytes : List Byte} {a : Nat} (h : a < 4 * (bytes.length / 4)) :
    (loadImage bytes).byteAt a = bytes[a]'(by omega) := by
  have hlen : a < (bytes.take (4 * (bytes.length / 4))).length := by
    rw [List.length_take]
    omega
  calc (loadImage bytes).byteAt a
      = lookupByte (imageCells 0 (bytes.take (4 * (bytes.length / 4)))) (0 + a) := by rw [Nat.zero_add]; rfl
    _ = (bytes.take (4 * (bytes.length / 4)))[a] := lookupByte_imageCells _ 0 a hlen
    _ = bytes[a]'(by omega) := List.getElem_take

/-- Settles O43: each byte of a whole group stands at its own address, and a word is its four bytes, low byte first. -/
theorem imageWordsAreLittleEndian : Obligations.ImageWordsAreLittleEndian := by
  refine fun bytes => ⟨rfl, fun k h => ?_⟩
  rw [Memory.wordAt, byteAt_loadImage (by omega), byteAt_loadImage (by omega), byteAt_loadImage (by omega),
    byteAt_loadImage (by omega), wordOfBytes]

/-! ## Fetch and store in one cycle (R72) -/

/-- IF/ID after Decode's response: held, flushed, or the word fetched. -/
theorem resolve_ifid {d : Slot} {x : RegFile} {s : State} {w : Word} {front : FrontEnd} (h : resolve d x s w = .ok front) :
    front.ifid = s.ifid ∨ front.ifid = IfId.zero ∨ front.ifid = ⟨w, s.pc, true⟩ := by
  obtain ⟨-, rfl⟩ | ⟨-, -, -, rfl⟩ | ⟨-, -, -, -, rfl⟩ | ⟨-, -, -, rfl⟩ | ⟨-, -, -, rfl⟩ := resolve_cases h
  · exact .inl rfl
  · exact .inr (.inl rfl)
  · exact .inr (.inl rfl)
  · exact .inr (.inl rfl)
  · exact .inr (.inr rfl)

/-- Every word of the memory after a cycle that stores. -/
theorem State.wordAt_memAfter {s : State} (hm : s.mem.wf) (hw : s.exmem.ctl.memWrite = true) (k : Nat) :
    s.memAfter.wordAt k = if k = wordIndex s.exmem.aluResult then s.exmem.writeData else s.mem.wordAt k := by
  rw [State.memAfter, if_pos hw, Memory.wordAt_setWord hm]

/-- Settles O42: the word that can enter IF/ID is read from the memory of before the store, and the next state holds the memory
of after it. -/
theorem fetchComesBeforeTheStore : Obligations.FetchComesBeforeTheStore := by
  intro s t hm hw hstep
  obtain ⟨c, -, w, hslot⟩ := step_slot s
  obtain ⟨-, -, front, hfront, rfl⟩ := clockCycle_next (hslot ▸ hstep)
  exact ⟨resolve_ifid hfront, State.wordAt_memAfter hm hw _⟩

/-! ## What a step leaves behind Decode (40_pipeline_cycle.md rules R150, R158, R160) -/

section
variable {s t : State} (h : step s = .next t)
include h

theorem step_exmem : t.exmem = s.execute := by
  obtain ⟨-, -, pc, ifid, idex, rfl⟩ := step_advance h
  rfl

theorem step_memwb : t.memwb = ⟨s.exmem, s.memResultAfter⟩ := by
  obtain ⟨-, -, pc, ifid, idex, rfl⟩ := step_advance h
  rfl

theorem step_mem : t.mem = s.memAfter := by
  obtain ⟨-, -, pc, ifid, idex, rfl⟩ := step_advance h
  rfl

theorem step_regs : t.regs = s.regsAfterWriteback := by
  obtain ⟨-, -, pc, ifid, idex, rfl⟩ := step_advance h
  rfl

/-- A slot that does not store leaves every byte alone in its MemoryAccess. -/
theorem memKept_of_step (hw : s.exmem.ctl.memWrite = false) : MemKept s t := by
  have hmem : t.mem = s.mem := by rw [step_mem h, State.memAfter, hw]; rfl
  rw [MemKept, hmem]
  exact ⟨rfl, fun _ => rfl⟩

/-- A slot that stores writes the one word at its address in its MemoryAccess. -/
theorem wordStored_of_step (hm : s.mem.wf) (hw : s.exmem.ctl.memWrite = true) :
    WordStored s t s.exmem.aluResult s.exmem.writeData := by
  rw [WordStored, step_mem h, State.wordAt_memAfter hm hw, if_pos rfl, State.memAfter, if_pos hw]
  exact ⟨rfl, rfl, fun _ ha => Memory.byteAt_setWord_ne _ ha⟩

/-- A slot that writes no register leaves all of them alone in its Writeback. -/
theorem regsKept_of_step (hw : s.memwb.ctl.regWrite = false) : RegsKept s t := by
  intro r
  rw [step_regs h, State.read_regsAfterWriteback, Slot.supplies_of_not_regWrite _ _ hw]
  rfl

/-- A slot that writes a register writes its destination in its Writeback, and no other register. -/
theorem regsWritten_of_step (hw : s.memwb.ctl.regWrite = true) : RegsWritten s t s.memwb.dest s.memwb.value := by
  intro r
  rw [step_regs h, State.read_regsAfterWriteback]
  refine if_congr ?_ rfl rfl
  rw [Slot.supplies_iff]
  exact ⟨fun ⟨_, hne, he⟩ => ⟨he.symm, hne⟩, fun ⟨he, hne⟩ => ⟨hw, hne, he.symm⟩⟩

end

/-! ## Forwarding gives the program-order value (40_pipeline_cycle.md rule R161) -/

/-- The result of the slot in EX/MEM, once its MemoryAccess is done. -/
theorem State.value_afterMemoryAccess {s : State} (hi : s.Inv) :
    MemWb.value ⟨s.exmem, s.memResultAfter⟩ =
      if s.exmem.ctl.memToReg then s.mem.wordAt (wordIndex s.exmem.aluResult) else s.exmem.aluResult := by
  have hload := (controlRows_facts _ hi.exmemRow).1
  simp only [MemWb.value, State.memResultAfter, hload]
  split <;> rfl

/-- The next cycle's forwarding multiplexer, on what Decode reads in this one, unless a load in ID/EX supplies the register. -/
theorem State.forward_eq_progVal {s : State} (hi : s.Inv) {r : RegId}
    (hload : s.idex.ctl.memToReg = true → s.idex.supplies r = false) :
    forward s.execute ⟨s.exmem, s.memResultAfter⟩ r (RegFile.read s.regsAfterWriteback r) = s.progVal r := by
  rw [forward, State.value_afterMemoryAccess hi, State.read_regsAfterWriteback, State.progVal, State.execute_toIdEx]
  by_cases hs : s.idex.supplies r = true
  · have hnot : ¬ s.idex.ctl.memToReg = true := fun hl => by simp [hload hl] at hs
    rw [if_pos hs, if_pos hs, if_neg hnot]
  · rw [if_neg hs, if_neg hs]

section
variable {s : State} {d : Slot} (hi : s.Inv) (hz : ¬ s.LoadUse d.rs d.rt) (pc : Word) (ifid : IfId)
include hi hz

theorem op1_advance_toIdEx : (s.advance pc ifid (d.toIdEx s.regsAfterWriteback)).op1 = s.progVal d.rs :=
  State.forward_eq_progVal hi fun hl => (State.load_supplies_none hi.idexRow hz hl).1

theorem rtOperand_advance_toIdEx : (s.advance pc ifid (d.toIdEx s.regsAfterWriteback)).rtOperand = s.progVal d.rt :=
  State.forward_eq_progVal hi fun hl => (State.load_supplies_none hi.idexRow hz hl).2

/-- What Execute makes of a slot that no load held off: its operation on program-order values. -/
theorem execute_advance_toIdEx : (s.advance pc ifid (d.toIdEx s.regsAfterWriteback)).execute =
    ⟨d.toIdEx s.regsAfterWriteback, alu d.ctl.aluOp (s.progVal d.rs) (if d.ctl.aluSrc then d.imm else s.progVal d.rt),
      s.progVal d.rt⟩ := by
  rw [State.execute, State.op2, op1_advance_toIdEx hi hz, rtOperand_advance_toIdEx hi hz]
  rfl

end

/-! ## An instruction on its way through the pipeline (R171) -/

/-- A slot that no load holds off enters ID/EX, whether or not it redirects. -/
theorem resolve_idex {d : Slot} {x : RegFile} {s : State} {w : Word} {front : FrontEnd} (hz : ¬ s.LoadUse d.rs d.rt)
    (h : resolve d x s w = .ok front) : front.idex = d.toIdEx x := by
  obtain ⟨hstall, -⟩ | ⟨-, -, -, rfl⟩ | ⟨-, -, -, -, rfl⟩ | ⟨-, -, -, rfl⟩ | ⟨-, -, -, rfl⟩ := resolve_cases h
  · exact absurd (State.loadUse_iff.mpr hstall) hz
  all_goals rfl

section
variable {i : Instr} {s s₁ s₂ s₃ s₄ : State} (hp : Passes i s s₁ s₂ s₃ s₄) (hi : s.Inv)
include hp hi

/-- EX/MEM behind the Execute of an instruction that no load held off, in any company. -/
theorem Passes.exmem (hz : ¬ s.Stalls (encode i)) : s₂.exmem =
    ⟨(wordSlot params (encode i) (rowOf i)).toIdEx s.regsAfterWriteback,
      alu (rowOf i).aluOp (s.progVal (Field.rs (encode i)))
        (if (rowOf i).aluSrc then (Field.imm (encode i)).signExtend 32 else s.progVal (Field.rt (encode i))),
      s.progVal (Field.rt (encode i))⟩ := by
  have hslot : ¬ s.LoadUse (wordSlot params (encode i) (rowOf i)).rs (wordSlot params (encode i) (rowOf i)).rt := hz
  obtain ⟨hdecode, hexecute, -, -⟩ := hp
  rw [exec_eq] at hdecode
  obtain ⟨-, -, front, hfront, rfl⟩ := clockCycle_next hdecode
  rw [step_exmem hexecute, resolve_idex hslot hfront, execute_advance_toIdEx hi hslot, wordSlot_imm]
  rfl

/-- The same of an I-format instruction whose second ALU operand is its immediate. -/
theorem Passes.exmem_encodeI {opc : Sel6} {rs rt : RegId} {imm : Imm16} (henc : encode i = encodeI opc rs rt imm)
    (hsrc : (rowOf i).aluSrc = true) (hz : ¬ s.LoadUse rs rt) : s₂.exmem =
    ⟨(iSlot params opc rs rt imm (rowOf i)).toIdEx s.regsAfterWriteback,
      alu (rowOf i).aluOp (s.progVal rs) (imm.signExtend 32), s.progVal rt⟩ := by
  have hstall : ¬ s.Stalls (encode i) := by rwa [State.Stalls, henc, Field.rs_encodeI, Field.rt_encodeI]
  rw [hp.exmem hi hstall, if_pos hsrc, henc, wordSlot_encodeI, Field.rs_encodeI, Field.rt_encodeI, Field.imm_encodeI]

theorem Passes.inv_memoryAccess : s₂.Inv := by
  obtain ⟨hdecode, hexecute, -, -⟩ := hp
  rw [exec_eq] at hdecode
  exact everyStepKeepsTheInvariant s₁ s₂ (clockCycle_keeps_inv hi (rowOf_mem i) hdecode) hexecute

end

/-! ## Loads and stores in program order (R69; 44_load_store.md rules R260 to R264) -/

/-- Settles O29: in MemoryAccess the load's slot has its program-order address, and what it reads there is its value in
Writeback. -/
theorem loadsInProgramOrder : Obligations.LoadsInProgramOrder := by
  intro s s₁ s₂ s₃ s₄ rs rt imm hi hz hp
  have hslot := hp.exmem_encodeI hi rfl rfl hz
  have hmemwb := step_memwb hp.memoryAccess
  have hwritten := regsWritten_of_step hp.writeback (by rw [hmemwb, hslot]; rfl)
  rw [hmemwb, State.value_afterMemoryAccess (hp.inv_memoryAccess hi), hslot] at hwritten
  exact ⟨hwritten, memKept_of_step hp.memoryAccess (by rw [hslot]; rfl)⟩

/-- Settles O30: in MemoryAccess the store's slot has its program-order address and data. -/
theorem storesInProgramOrder : Obligations.StoresInProgramOrder := by
  intro s s₁ s₂ s₃ s₄ rs rt imm hi hz hp
  have hslot := hp.exmem_encodeI hi rfl rfl hz
  have hstored := wordStored_of_step hp.memoryAccess (hp.inv_memoryAccess hi).memWf (by rw [hslot]; rfl)
  rw [hslot] at hstored
  exact ⟨hstored, regsKept_of_step hp.writeback (by rw [step_memwb hp.memoryAccess, hslot]; rfl)⟩

end Sys2Proof.Machine
end

-- Proofs of the statements about encoding (30_encoding.md): the decoder and the encoder (R91, R97, R99), the opcode table
-- (R103), the words of no row (R100), and the target of `j` (R95).
section
namespace Sys2Proof
open Machine

/-! ## The decoder on encoded words (R91, R97, R99) -/

section
variable {p : Params}

theorem decodeWith_of_opcRtype {w : Word} (h : Field.opcode w = p.opcRtype) : decodeWith p w = decodeR p w := if_pos h

/-- Under an admissible assignment the decoder inverts the encoder. An R-format word is found by its function code, which is that
of no row tested before it; any other word by its opcode. The table of R97 and the decoder list the opcodes in different orders,
so their distinctness is read in both directions. -/
theorem decodeWith_encodeWith (hp : p.wf) (i : Instr) : decodeWith p (encodeWith p i) = .ok i := by
  obtain ⟨hopc, hfun, -⟩ := hp
  have hopc' := List.nodup_reverse.mpr hopc
  have hfun' := List.nodup_reverse.mpr hfun
  simp only [Params.opcodes, Params.functs, List.reverse_cons, List.reverse_nil, List.nil_append, List.cons_append,
    List.nodup_cons, List.mem_cons, List.not_mem_nil, or_false, not_or] at hopc hopc' hfun'
  cases i with
  | add | sub | and | or | nor | slt | jr =>
    rw [encodeWith, decodeWith_of_opcRtype (Field.opcode_encodeR ..)]
    simp [decodeR, hfun']
  | addi | slti | andi | ori | beq | bne | lw | sw | j | halt => simp [encodeWith, decodeWith, hopc, hopc']

/-- The two directions of the round trip in one. -/
theorem decodeWith_eq_ok_iff (hp : p.wf) {w : Word} {i : Instr} : decodeWith p w = .ok i ↔ encodeWith p i = w :=
  ⟨encodeWith_of_decodeWith, fun h => h ▸ decodeWith_encodeWith hp i⟩

end

/-- Settles O1: each selector of an instruction's word is that of no row which the decoder tests earlier. -/
theorem decodeInvertsEncode : Obligations.DecodeInvertsEncode :=
  fun _ i hp => decodeWith_encodeWith hp i

/-- Settles O2: a word is its fields put together, and the decoder keeps all of them. -/
theorem encodeInvertsDecode : Obligations.EncodeInvertsDecode :=
  fun _ _ _ h => encodeWith_of_decodeWith h

theorem decode_eq_ok_iff {w : Word} {i : Instr} : decode w = .ok i ↔ encode i = w :=
  decodeWith_eq_ok_iff (by decide)

/-- Settles O4: each word is the encoding of the instruction it stands for. -/
theorem decodesTheWrittenOutWords : Obligations.DecodesTheWrittenOutWords := by
  unfold Obligations.DecodesTheWrittenOutWords
  simp only [decode_eq_ok_iff]
  decide

/-! ## The opcode table (R103) -/

/-- The mask of the R-format rows keeps the opcode and the function code. -/
theorem and_functMask (w : Word) : w &&& 0xFC00003F#32 = encodeR (Field.opcode w) 0 0 0 0 (Field.funct w) := by
  have hopc : Field.opcode (w &&& 0xFC00003F#32) = Field.opcode w := BitVec.extractLsb'_and.trans BitVec.and_allOnes
  have hfun : Field.funct (w &&& 0xFC00003F#32) = Field.funct w := BitVec.extractLsb'_and.trans BitVec.and_allOnes
  have hrs : Field.rs (w &&& 0xFC00003F#32) = 0 := BitVec.extractLsb'_and.trans BitVec.and_zero
  have hrt : Field.rt (w &&& 0xFC00003F#32) = 0 := BitVec.extractLsb'_and.trans BitVec.and_zero
  have hrd : Field.rd (w &&& 0xFC00003F#32) = 0 := BitVec.extractLsb'_and.trans BitVec.and_zero
  have hshamt : Field.shamt (w &&& 0xFC00003F#32) = 0 := BitVec.extractLsb'_and.trans BitVec.and_zero
  calc w &&& 0xFC00003F#32
      = encodeR (Field.opcode w) (Field.rs (w &&& 0xFC00003F#32)) (Field.rt (w &&& 0xFC00003F#32))
          (Field.rd (w &&& 0xFC00003F#32)) (Field.shamt (w &&& 0xFC00003F#32)) (Field.funct w) :=
        (encodeR_of_opcode_funct hopc hfun).symm
    _ = encodeR (Field.opcode w) 0 0 0 0 (Field.funct w) := by rw [hrs, hrt, hrd, hshamt]

/-- The mask of the other rows keeps the opcode. -/
theorem and_opcodeMask (w : Word) : w &&& 0xFC000000#32 = encodeJ (Field.opcode w) 0 := by
  have hopc : Field.opcode (w &&& 0xFC000000#32) = Field.opcode w := BitVec.extractLsb'_and.trans BitVec.and_allOnes
  have haddr : Field.addr (w &&& 0xFC000000#32) = 0 := BitVec.extractLsb'_and.trans BitVec.and_zero
  rw [← haddr, encodeJ_of_opcode hopc]

/-- The word `w` belongs to the row: its bits under the mask are the pattern. -/
def TableRow.Holds (row : TableRow) (w : Word) : Prop := w &&& row.mask = row.pattern

section
variable {m : String} {opc funct : Sel6} (rs rt rd : RegId) (shamt : Shamt) (imm : Imm16) (addr : Addr26)

theorem exists_row_holds_encodeR (h : ⟨m, 0xFC00003F#32, encodeR opc 0 0 0 0 funct⟩ ∈ opcodeTable) :
    ∃ row ∈ opcodeTable, row.mnemonic = m ∧ row.Holds (encodeR opc rs rt rd shamt funct) :=
  ⟨_, h, rfl, by rw [TableRow.Holds, and_functMask, Field.opcode_encodeR, Field.funct_encodeR]⟩

theorem exists_row_holds_encodeI (h : ⟨m, 0xFC000000#32, encodeJ opc 0⟩ ∈ opcodeTable) :
    ∃ row ∈ opcodeTable, row.mnemonic = m ∧ row.Holds (encodeI opc rs rt imm) :=
  ⟨_, h, rfl, by rw [TableRow.Holds, and_opcodeMask, Field.opcode_encodeI]⟩

theorem exists_row_holds_encodeJ (h : ⟨m, 0xFC000000#32, encodeJ opc 0⟩ ∈ opcodeTable) :
    ∃ row ∈ opcodeTable, row.mnemonic = m ∧ row.Holds (encodeJ opc addr) :=
  ⟨_, h, rfl, by rw [TableRow.Holds, and_opcodeMask, Field.opcode_encodeJ]⟩

end

theorem exists_row_holds_encode (i : Instr) : ∃ row ∈ opcodeTable, row.mnemonic = i.mnemonic ∧ row.Holds (encode i) := by
  cases i <;> rw [Instr.mnemonic, encode, encodeWith]
  case add | sub | and | or | nor | slt | jr => exact exists_row_holds_encodeR _ _ _ _ (by decide)
  case addi | slti | andi | ori | beq | bne | lw | sw => exact exists_row_holds_encodeI _ _ _ (by decide)
  case j | halt => exact exists_row_holds_encodeJ _ (by decide)

theorem opcodeTable_mnemonics_nodup : (opcodeTable.map TableRow.mnemonic).Nodup := by decide

/-- "With the default numbers no two rows overlap": the patterns of two rows differ in a bit that both masks keep. -/
theorem eq_of_holds {row row' : TableRow} (h : row ∈ opcodeTable) (h' : row' ∈ opcodeTable) {w : Word} (hw : row.Holds w)
    (hw' : row'.Holds w) : row = row' := by
  have hdisjoint : ∀ a ∈ opcodeTable, ∀ b ∈ opcodeTable, a.pattern &&& b.mask = b.pattern &&& a.mask → a = b := by decide
  refine hdisjoint row h row' h' ?_
  rw [← hw, ← hw', BitVec.and_assoc, BitVec.and_assoc, BitVec.and_comm row.mask]

/-- A word of a row has the row's opcode and, where that is the R-format one, its function code; so the decoder knows it. -/
theorem not_selectsNoRow_of_holds {row : TableRow} (h : row ∈ opcodeTable) {w : Word} (hw : row.Holds w) :
    ¬ SelectsNoRow params w := by
  have hselectors : ∀ a ∈ opcodeTable,
      a.mask = 0xFC00003F#32 ∧ Field.opcode a.pattern ∈ params.opcodes ∧ Field.funct a.pattern ∈ params.functs ∨
      a.mask = 0xFC000000#32 ∧ Field.opcode a.pattern ∈ params.opcodes ∧ Field.opcode a.pattern ≠ params.opcRtype := by decide
  obtain ⟨hmask, hopc, hfun⟩ | ⟨hmask, hopc, hne⟩ := hselectors row h
  · rw [← hw, hmask, and_functMask, Field.opcode_encodeR] at hopc
    rw [← hw, hmask, and_functMask, Field.funct_encodeR] at hfun
    exact fun hno => hno.elim (· hopc) (·.2 hfun)
  · rw [← hw, hmask, and_opcodeMask, Field.opcode_encodeJ] at hopc hne
    exact fun hno => hno.elim (· hopc) (hne ·.1)

/-- Settles O3: the word of an instruction belongs to that instruction's row and, as no two rows overlap, to no other; a word of a
row is the word of some instruction. -/
theorem decoderFollowsTheOpcodeTable : Obligations.DecoderFollowsTheOpcodeTable := by
  refine fun w row hrow => ⟨fun (hw : row.Holds w) => ?_, fun ⟨i, hi, hm⟩ => ?_⟩
  · cases hi : decode w with
    | error r => exact absurd (selectsNoRow_of_decodeWith_error hi) (not_selectsNoRow_of_holds hrow hw)
    | ok i =>
      obtain ⟨own, hown, hm, hw'⟩ := exists_row_holds_encode i
      rw [decode_eq_ok_iff.mp hi] at hw'
      exact ⟨i, rfl, eq_of_holds hrow hown hw hw' ▸ hm.symm⟩
  · obtain ⟨own, hown, hm', hw⟩ := exists_row_holds_encode i
    rw [decode_eq_ok_iff.mp hi] at hw
    exact List.inj_on_of_nodup_map opcodeTable_mnemonics_nodup hown hrow (hm'.trans hm) ▸ hw

end Sys2Proof

namespace Sys2Proof.Machine

/-! ## Words of no row (R100; 45_halt_nop.md rule R286) -/

/-- Settles O9: with no instruction in Decode the step is the cycle of the bare word, whose signals, all 0, redirect nothing. -/
theorem wordsOfNoRowAreNoOps : Obligations.WordsOfNoRowAreNoOps := by
  intro s hnone hf hd hz
  rw [step_of_none hnone]
  exact clockCycle_sequel (d := wordSlot params s.ifid.instr Controls.zero) hf hd hz rfl rfl

/-! ## The target of `j` (R95) -/

theorem jumpTarget_eq_four_mul (addr : Addr26) : jumpTarget addr = 4 * addr.setWidth 32 := by
  have hlow : (jumpTarget addr).toNat = ((0 : BitVec 4) ++ addr).toNat <<< 2 ||| 0 := BitVec.toNat_append _ _
  have hhigh : ((0 : BitVec 4) ++ addr).toNat = 0 <<< 26 ||| addr.toNat := BitVec.toNat_append _ _
  rw [Nat.or_zero, hhigh, Nat.zero_shiftLeft, Nat.zero_or, Nat.shiftLeft_eq] at hlow
  bv_omega

/-- A jump that is not held: four times its address field enters `pc`, and IF/ID is flushed (R146). -/
theorem clockCycle_jump {d : Slot} {s : State} (hf : s.FetchOk) (hd : s.DataOk) (hz : ¬ s.LoadUse d.rs d.rt)
    (hb : d.ctl.branch = false) (hj : d.ctl.jump = true) (hs : d.ctl.jumpSrc = false) :
    clockCycle d s = .next (s.advance (jumpTarget d.addr) IfId.zero (d.toIdEx s.regsAfterWriteback)) := by
  rw [clockCycle_of_ok hf hd, resolve, State.not_loadUse_iff.mp hz, hb, hj, hs]
  rfl

/-- Settles O32: `j` is the jump with its address field as the target's word address. -/
theorem jumpGoesToFourTimesItsAddress : Obligations.JumpGoesToFourTimesItsAddress := by
  intro s addr hf hd hz
  have haddr : Field.addr (encode (.j addr)) = addr := Field.addr_encodeJ ..
  refine ⟨?_, (jumpTarget_eq_four_mul addr).symm⟩
  rw [exec_eq, clockCycle_jump (d := wordSlot params (encode (.j addr)) (rowOf (.j addr))) hf hd hz rfl rfl rfl, wordSlot_addr,
    haddr, jumpTarget_eq_four_mul]
  rfl

/-! ## Refusals (R301) -/

/-- A cycle ends in a next state or in a Fatal. -/
theorem clockCycle_ne_refused (d : Slot) (s : State) (r : Refusal) : clockCycle d s ≠ .refused r := by
  unfold clockCycle
  repeat' split
  all_goals exact nofun

/-- Settles O12: every meaning, and the step with or without an instruction in Decode, is a clock cycle. -/
theorem nothingIsRefused : Obligations.NothingIsRefused := by
  refine fun s r => ⟨fun i => exec_eq i s ▸ clockCycle_ne_refused _ s r, ?_⟩
  obtain ⟨c, -, w, hstep⟩ := step_slot s
  exact hstep ▸ clockCycle_ne_refused _ s r

end Sys2Proof.Machine
end

-- Proofs of the statements about the clock cycle (40_pipeline_cycle.md): the dispatch (R120, R140), the five stages (R130 to R160),
-- the load-use interlock and forwarding (R142, R151, R161), branches in Decode (R144), `halt` (R131, R162), and the count of a
-- halted run (R163, R174).
section
namespace Sys2Proof.Machine

/-! ## The dispatch (R120, R140) -/

/-- Settles O6: an instruction that stands in a valid IF/ID is the one in Decode. -/
theorem stepRunsTheDecodedInstruction : Obligations.StepRunsTheDecodedInstruction := by
  intro s i hv hi
  rw [step_of_some (State.instrInDecode_eq_some.mpr ⟨hv, hi⟩), exec_eq]

theorem tableWord_toNat (w : Word) : tableWord 32 w.toNat = w := by
  rw [tableWord, Nat.mod_eq_of_lt w.isLt, BitVec.ofNat_toNat, BitVec.setWidth_eq]

/-- Settles O7: the placement leaves the word in IF/ID, its marker set. -/
theorem placedWordRunsNext : Obligations.PlacedWordRunsNext := by
  intro s w i hi
  rw [State.withFetchWord, tableWord_toNat]
  exact stepRunsTheDecodedInstruction (s.placeWord w) i rfl hi

/-- The step takes its fields and signals straight from the bits of IF/ID (R99, R140). -/
theorem step_eq_clockCycle_rawSlot (s : State) : step s = clockCycle (rawSlot params s.ifid) s :=
  (step_eq_stepWith s).trans (stepWith_eq_clockCycle_rawSlot (by decide) s)

/-! ## What Decode does with the word in IF/ID (R140 to R147) -/

/-- Part 1 of Decode on a word: its fields, the two reads of this cycle, and the given signals. -/
theorem wordSlot_toIdEx (s : State) (w : Word) (c : Controls) :
    (wordSlot params w c).toIdEx s.regsAfterWriteback = s.decoded w c := rfl

/-- The same with the signals of the control function. -/
theorem rawSlot_toIdEx (s : State) :
    (rawSlot params s.ifid).toIdEx s.regsAfterWriteback =
      s.decoded s.ifid.instr (controlOf params s.ifid.valid (Field.opcode s.ifid.instr) (Field.funct s.ifid.instr)) := rfl

section
variable {d : Slot} {s t : State}

/-- A cycle that holds its word (R143). -/
theorem clockCycle_stall (hf : s.FetchOk) (hd : s.DataOk) (hz : s.LoadUse d.rs d.rt) :
    clockCycle d s = .next (s.advance s.pc s.ifid IdEx.zero) := by
  rw [clockCycle_of_ok hf hd, resolve_stall (State.loadUse_iff.mp hz)]

/-- A cycle that does not hold its word takes it into ID/EX, whether or not it redirects. -/
theorem clockCycle_not_stalled (hz : ¬ s.LoadUse d.rs d.rt) (h : clockCycle d s = .next t) :
    ∃ pc ifid, t = s.advance pc ifid (d.toIdEx s.regsAfterWriteback) := by
  obtain ⟨-, -, front, hfront, rfl⟩ := clockCycle_next h
  exact ⟨_, _, by rw [resolve_idex hz hfront]⟩

end

section
variable {s t : State} (h : step s = .next t)
include h

theorem step_of_stalls (hz : s.Stalls s.ifid.instr) : t = s.advance s.pc s.ifid IdEx.zero := by
  obtain ⟨hf, hd, -⟩ := step_advance h
  rw [step_eq_clockCycle_rawSlot, clockCycle_stall (d := rawSlot params s.ifid) hf hd hz] at h
  exact (Host.Outcome.next.inj h).symm

theorem step_of_not_stalls (hz : ¬ s.Stalls s.ifid.instr) :
    ∃ pc ifid, t = s.advance pc ifid ((rawSlot params s.ifid).toIdEx s.regsAfterWriteback) :=
  clockCycle_not_stalled (d := rawSlot params s.ifid) hz (step_eq_clockCycle_rawSlot s ▸ h)

/-- Without a stall and without a redirect the fetched word follows (R147). -/
theorem step_of_sequel (hz : ¬ s.Stalls s.ifid.instr) (hj : (rawSlot params s.ifid).ctl.jump = false)
    (hb : ((rawSlot params s.ifid).ctl.branch && branchTaken (rawSlot params s.ifid).ctl
      (s.decodeRead (Field.rs s.ifid.instr)) (s.decodeRead (Field.rt s.ifid.instr))) = false) :
    t = s.sequel ((rawSlot params s.ifid).toIdEx s.regsAfterWriteback) := by
  obtain ⟨hf, hd, -⟩ := step_advance h
  rw [step_eq_clockCycle_rawSlot, clockCycle_sequel (d := rawSlot params s.ifid) hf hd hz hb hj] at h
  exact (Host.Outcome.next.inj h).symm

theorem step_idex_of_not_stalls (hz : ¬ s.Stalls s.ifid.instr) :
    t.idex = s.decoded s.ifid.instr
      (controlOf params s.ifid.valid (Field.opcode s.ifid.instr) (Field.funct s.ifid.instr)) := by
  obtain ⟨pc, ifid, rfl⟩ := step_of_not_stalls h hz
  exact rawSlot_toIdEx s

end

theorem State.not_stalls_of_not_memRead {s : State} (h : s.idex.ctl.memRead = false) (w : Word) : ¬ s.Stalls w :=
  State.not_stalls_iff.mpr (hazard_of_not_memRead h _ _)

/-- The one way Decode's response is a Fatal: a `jr` that is not held, with a misaligned register (R146). -/
theorem resolve_error {d : Slot} {x : RegFile} {s : State} {w : Word} {f : Fault} (h : resolve d x s w = .error f) :
    hazard s.idex d.rs d.rt = false ∧ d.ctl.jumpSrc = true ∧ misaligned (RegFile.read x d.rs) = true := by
  unfold resolve at h
  split at h
  case isTrue => cases h
  case isFalse hz =>
    repeat' split at h
    all_goals cases h
    rename_i hs hm
    exact ⟨Bool.not_eq_true _ ▸ hz, hs, hm⟩

/-- `jr` is the one instruction whose target is a register (R98). -/
theorem eq_jr_of_rowOf_jumpSrc {i : Instr} (h : (rowOf i).jumpSrc = true) : ∃ rs rt rd shamt, i = .jr rs rt rd shamt := by
  cases i with
  | jr rs rt rd shamt => exact ⟨rs, rt, rd, shamt, rfl⟩
  | _ => nomatch h

/-- Settles O11: with both accesses inside the image only Decode's response could be a Fatal, and then the instruction would be a
`jr` that is not held, with a misaligned register. -/
theorem everyInstructionPassesDecode : Obligations.EveryInstructionPassesDecode := by
  intro i s hf hd hjr
  rw [exec_eq, clockCycle_of_ok hf hd]
  cases hr : resolve (wordSlot params (encode i) (rowOf i)) s.regsAfterWriteback s s.fetched with
  | ok front => exact ⟨_, _, _, rfl⟩
  | error f =>
    obtain ⟨hz, hs, hm⟩ := resolve_error hr
    obtain ⟨rs, rt, rd, shamt, rfl⟩ := eq_jr_of_rowOf_jumpSrc hs
    have hrs : Field.rs (encode (.jr rs rt rd shamt)) = rs := Field.rs_encodeR ..
    have haligned := misaligned_eq_false.mpr (hjr rs rt rd shamt rfl (State.not_stalls_iff.mpr hz))
    rw [wordSlot_rs, hrs] at hm
    exact absurd (hm.symm.trans haligned) (by decide)

/-! ## Fetch (R130, R131) -/

theorem clockCycle_of_not_fetchOk {d : Slot} {s : State} (h : ¬ s.FetchOk) :
    clockCycle d s = .fault (.outOfBounds .fetch s.pc) := by
  rw [clockCycle, Memory.read_eq_none.mpr h]

/-- Settles O15: with no stall and no redirect the next state is the one in which the fetched word enters IF/ID. -/
theorem fetchReadsStampsAndAdvances : Obligations.FetchReadsStampsAndAdvances := by
  refine fun s => ⟨fun hf => step_eq_clockCycle_rawSlot s ▸ clockCycle_of_not_fetchOk hf, fun t h hz hj hb => ?_⟩
  obtain ⟨hf, -⟩ := step_advance h
  obtain rfl := step_of_sequel h hz hj hb
  exact ⟨State.read_fetched hf, rfl, rfl, rfl⟩

/-! ## Writeback (R160) and Execute (R150 to R155) -/

/-- When a slot supplies a register, its destination written out (R151, R160). -/
theorem Slot.supplies_iff_dest {l : Slot} {r : RegId} :
    l.supplies r = true ↔ l.ctl.regWrite = true ∧ r ≠ 0 ∧ r = (if l.ctl.regDst then l.rd else l.rt) := by
  rw [Slot.supplies_iff, Slot.dest]
  constructor
  · rintro ⟨hw, hne, rfl⟩
    exact ⟨hw, hne, rfl⟩
  · rintro ⟨hw, hne, rfl⟩
    exact ⟨hw, hne, rfl⟩

/-- Settles O16: the registers of the next state are those after Writeback, which Decode read. -/
theorem writebackIsTheOnlyRegisterWrite : Obligations.WritebackIsTheOnlyRegisterWrite := by
  intro s t h
  rw [step_regs h]
  refine ⟨fun r => ?_, fun hz => ?_⟩
  · rw [State.read_regsAfterWriteback]
    exact if_congr Slot.supplies_iff_dest rfl rfl
  · rw [step_idex_of_not_stalls h hz]
    exact ⟨rfl, rfl⟩

/-- The forwarding multiplexer, its two comparisons written out (R151, R152). -/
theorem forward_eq (e : ExMem) (m : MemWb) (r : RegId) (raw : Word) :
    forward e m r raw =
      if e.ctl.regWrite = true ∧ r ≠ 0 ∧ r = (if e.ctl.regDst then e.rd else e.rt) then e.aluResult
      else if m.ctl.regWrite = true ∧ r ≠ 0 ∧ r = (if m.ctl.regDst then m.rd else m.rt) then
        (if m.ctl.memToReg then m.memResult else m.aluResult)
      else raw := by
  rw [forward]
  exact if_congr Slot.supplies_iff_dest rfl (if_congr Slot.supplies_iff_dest rfl rfl)

/-- Settles O17: the operands are the forwarding multiplexers', and each code selects its operation. -/
theorem executeCarriesAndComputes : Obligations.ExecuteCarriesAndComputes := by
  intro s t h
  rw [step_exmem h]
  intro operand a f b
  have ha : s.op1 = a := forward_eq ..
  have hf : s.rtOperand = f := forward_eq ..
  have hb : s.op2 = b := by rw [State.op2, hf]
  rw [State.execute_aluResult, ha, hb]
  refine ⟨rfl, hf, ?_, ?_, ?_, ?_, ?_, ?_⟩ <;> intro hop <;> rw [hop]
  · exact alu_add a b
  · exact alu_sub a b
  · exact alu_and a b
  · exact alu_or a b
  · exact alu_nor a b
  · exact alu_slt a b

/-! ## MemoryAccess (R158) -/

/-- Settles O18: a cycle that answers a next state has its access inside the image, so the read and the write succeed. -/
theorem memoryAccessReadsOrWrites : Obligations.MemoryAccessReadsOrWrites := by
  intro s t h
  obtain ⟨-, hd, -⟩ := step_advance h
  rw [step_memwb h, step_mem h, State.memResultAfter, State.memAfter]
  refine ⟨rfl, fun hr => ?_, fun hr => ?_, fun hw => ?_, fun hw => ?_⟩
  · rw [if_pos hr]
    exact Memory.read_eq_some.mpr ⟨hd (.inl hr), rfl⟩
  · rw [hr]
    rfl
  · rw [if_pos hw]
    exact Memory.write_eq_some.mpr ⟨hd (.inr hw), rfl⟩
  · rw [hw]
    rfl

/-- A byte that the cycle's store does not reach (R121, R158). -/
theorem State.byteAt_memAfter {s : State} {a : Nat}
    (h : s.exmem.ctl.memWrite = false ∨ a / 4 ≠ wordIndex s.exmem.aluResult) : s.memAfter.byteAt a = s.mem.byteAt a := by
  unfold State.memAfter
  split <;> rename_i hw
  · exact Memory.byteAt_setWord_ne _ (h.resolve_left (Bool.not_eq_false _ ▸ hw))
  · rfl

/-- Settles O41: what an instruction's cycle changes of registers and memory is MEM/WB's write and EX/MEM's store. -/
theorem cycleFrame : Obligations.CycleFrame := by
  intro i s t h
  rw [exec_eq] at h
  obtain ⟨-, -, front, -, rfl⟩ := clockCycle_next h
  refine ⟨fun r hr => ?_, State.memAfter_words s, fun a ha => State.byteAt_memAfter ha⟩
  rw [State.advance_regs, State.read_regsAfterWriteback, if_neg]
  rw [Slot.supplies_iff]
  rintro ⟨hw, hne, rfl⟩
  obtain hr | hr | hr := hr
  · exact absurd (hw.symm.trans hr) (by decide)
  · exact hne hr
  · exact hr rfl

/-! ## The load-use interlock (R142, R143, R172) -/

/-- Settles O19: the cycle of an instruction and the step are cycles of a slot with the bits of the word that is compared. -/
theorem stallHoldsTheFrontEndForOneCycle : Obligations.StallHoldsTheFrontEndForOneCycle := by
  intro s hf hd
  refine ⟨fun i hz => ?_, fun i t hz h => ?_, fun hz => ?_, fun t hz h => step_idex_of_not_stalls h hz, rfl⟩
  · rw [exec_eq]
    exact clockCycle_stall (d := wordSlot params (encode i) (rowOf i)) hf hd hz
  · rw [exec_eq] at h
    obtain ⟨pc, ifid, rfl⟩ := clockCycle_not_stalled (d := wordSlot params (encode i) (rowOf i)) hz h
    have hctl := controlOf_encodeWith (p := params) (by decide) i
    rw [State.advance_idex, wordSlot_toIdEx, ← hctl]
    rfl
  · rw [step_eq_clockCycle_rawSlot]
    exact clockCycle_stall (d := rawSlot params s.ifid) hf hd hz

/-- Behind a slot that writes no register, a reader of a load's destination gets the loaded word (R152). -/
theorem forward_of_load {e : ExMem} {m : MemWb} {r : RegId} (he : e.ctl.regWrite = false) (hm : m.ctl = Row.lw) (hne : r ≠ 0)
    (hr : r = m.rt) (raw : Word) : forward e m r raw = m.memResult := by
  have hload : m.supplies r = true := Slot.supplies_iff_dest.mpr (by rw [hm]; exact ⟨rfl, hne, hr⟩)
  rw [forward, Slot.supplies_of_not_regWrite _ _ he, hload, MemWb.value, hm]
  rfl

/-- Settles O20: the held cycle leaves a bubble ahead of the word, and when the word is in Execute the load is in MEM/WB. -/
theorem loadUseConsumerSeesTheLoadedWord : Obligations.LoadUseConsumerSeesTheLoadedWord := by
  intro s t u hlw hne hz ht hu
  obtain ⟨-, hd, -⟩ := step_advance hu
  have hexmem := step_exmem hu
  have hmemwb := step_memwb hu
  obtain rfl := step_of_stalls ht hz
  have hidex := step_idex_of_not_stalls hu (State.not_stalls_of_not_memRead rfl _)
  have hread : s.execute.ctl.memRead = true := by rw [State.execute_toIdEx, hlw]; rfl
  have hloaded : (s.advance s.pc s.ifid IdEx.zero).mem.read s.execute.aluResult = some u.memwb.memResult := by
    rw [hmemwb, State.memResultAfter, State.advance_exmem, if_pos hread]
    exact Memory.read_eq_some.mpr ⟨hd (.inl hread), rfl⟩
  have hoperand (r : RegId) (raw : Word) (hr : r = s.idex.rt) : forward u.exmem u.memwb r raw = u.memwb.memResult :=
    forward_of_load (by rw [hexmem]; rfl) (by rw [hmemwb]; exact hlw) (hr ▸ hne) (by rw [hmemwb]; exact hr) raw
  refine ⟨rfl, rfl, by rw [hidex]; rfl, by rw [hidex]; rfl, fun hr => ?_, fun hr => ?_⟩
  · rw [State.op1, hoperand _ _ hr]
    exact hloaded
  · rw [State.rtOperand, hoperand _ _ hr]
    exact hloaded

/-! ## Program order (R161) -/

/-- A stalled cycle changes no register's program-order value: each older slot goes on by one latch with its result, and the bubble
behind them supplies nothing. -/
theorem State.progVal_advance_stall {s : State} (hi : s.Inv) (r : RegId) :
    (s.advance s.pc s.ifid IdEx.zero).progVal r = s.progVal r := by
  have hbubble : (s.advance s.pc s.ifid IdEx.zero).idex.supplies r = false := Slot.supplies_of_not_regWrite _ _ rfl
  rw [State.progVal, hbubble, State.advance_exmem, State.advance_memwb, State.advance_regs, State.advance_mem,
    State.read_regsAfterWriteback, State.value_afterMemoryAccess hi]
  rfl

/-- Settles O21: forwarding gives a word that is not held its program-order values, and a stalled cycle keeps them for a word that
is. -/
theorem executeOperandsAreProgramOrderValues : Obligations.ExecuteOperandsAreProgramOrderValues := by
  intro s t hi h
  refine ⟨fun hz => ?_, fun hz => ?_⟩
  · obtain ⟨pc, ifid, rfl⟩ := step_of_not_stalls h hz
    have hslot : ¬ s.LoadUse (rawSlot params s.ifid).rs (rawSlot params s.ifid).rt := hz
    exact ⟨op1_advance_toIdEx hi hslot pc ifid, rtOperand_advance_toIdEx hi hslot pc ifid⟩
  · obtain rfl := step_of_stalls h hz
    exact ⟨rfl, State.not_stalls_of_not_memRead rfl _, State.progVal_advance_stall hi⟩

/-! ## Branches (R144, R145) -/

/-- A branch that is not held: taken, it goes to its target; not taken, the fetched word follows it. -/
theorem exec_of_branch {i : Instr} {s : State} {opc : Sel6} {rs rt : RegId} {off : Imm16} (hi : encode i = encodeI opc rs rt off)
    (hb : (rowOf i).branch = true) (hj : (rowOf i).jump = false) (hf : s.FetchOk) (hd : s.DataOk) (hz : ¬ s.LoadUse rs rt) :
    exec i s = .next
      (if branchTaken (rowOf i) (s.decodeRead rs) (s.decodeRead rt) = true
        then s.advance (s.ifid.pc + 4 + 4 * off.signExtend 32) IfId.zero (s.decoded (encode i) (rowOf i))
        else s.sequel (s.decoded (encode i) (rowOf i))) := by
  have hrs : Field.rs (encode i) = rs := hi ▸ Field.rs_encodeI ..
  have hrt : Field.rt (encode i) = rt := hi ▸ Field.rt_encodeI ..
  have himm : Field.imm (encode i) = off := hi ▸ Field.imm_encodeI ..
  subst hrs hrt himm
  rw [exec_eq]
  split <;> rename_i ht
  · rw [clockCycle_branch (d := wordSlot params (encode i) (rowOf i)) hf hd hz (by rw [wordSlot_ctl, hb]; exact ht),
      wordSlot_imm]
    rfl
  · exact clockCycle_sequel (d := wordSlot params (encode i) (rowOf i)) hf hd hz
      (by rw [wordSlot_ctl, hb]; exact Bool.not_eq_true _ ▸ ht) hj

/-- Settles O31: the rows of the two branches take them on equal and on different values. -/
theorem branchesResolveInDecode : Obligations.BranchesResolveInDecode := by
  refine fun s rs rt off hf hd hz => ⟨?_, ?_⟩
  · rw [exec_of_branch (i := .beq rs rt off) rfl rfl rfl hf hd hz, rowOf, branchTaken_beq]
    simp only [beq_iff_eq]
  · rw [exec_of_branch (i := .bne rs rt off) rfl rfl rfl hf hd hz, rowOf, branchTaken_bne]
    simp only [bne_iff_ne]

/-! ## Halt (R131, R162) -/

/-- Settles O36: a slot that is not held carries its signals through Execute and MemoryAccess unchanged. -/
theorem haltReachesWriteback : Obligations.HaltReachesWriteback := by
  intro s s₁ s₂ s₃ code hz h₁ h₂ h₃
  rw [exec_eq] at h₁
  obtain ⟨pc, ifid, rfl⟩ := clockCycle_not_stalled (d := wordSlot params (encode (.halt code)) (rowOf (.halt code))) hz h₁
  rw [State.halted, step_memwb h₃, step_exmem h₂]
  rfl

/-- A word that the cycle's store does not reach. -/
theorem State.wordAt_memAfter_ne {s : State} {k : Nat}
    (h : ¬ (s.exmem.ctl.memWrite = true ∧ wordIndex s.exmem.aluResult = k)) : s.memAfter.wordAt k = s.mem.wordAt k := by
  have hbyte {a : Nat} (ha : a / 4 = k) : s.memAfter.byteAt a = s.mem.byteAt a := by
    refine State.byteAt_memAfter ?_
    by_cases hw : s.exmem.ctl.memWrite = true
    · exact .inr fun he => h ⟨hw, he ▸ ha⟩
    · exact .inl (Bool.not_eq_true _ ▸ hw)
  rw [Memory.wordAt, hbyte (by omega), hbyte (by omega), hbyte (by omega), hbyte (by omega)]
  rfl

theorem rawSlot_haltWord_ctl (pc : Word) : (rawSlot params ⟨Config.haltWord, pc, true⟩).ctl = Row.halt := by
  simp only [rawSlot, wordSlot_ctl]
  decide

/-- With the canonical halt word in IF/ID and under `pc`, a cycle holds the front end or fetches the word again. -/
theorem step_halt_frontEnd {s t : State} (hifid : s.ifid = ⟨Config.haltWord, s.pc, true⟩) (hw : s.fetched = Config.haltWord)
    (h : step s = .next t) : t.pc = s.pc ∧ t.ifid = s.ifid ∧ t.idex.ctl ∈ [Row.halt, Controls.zero] := by
  have hctl : (rawSlot params s.ifid).ctl = Row.halt := by rw [hifid, rawSlot_haltWord_ctl]
  by_cases hz : s.Stalls s.ifid.instr
  · obtain rfl := step_of_stalls h hz
    exact ⟨rfl, rfl, by simp⟩
  · obtain rfl := step_of_sequel h hz (by rw [hctl]; rfl) (by rw [hctl]; rfl)
    refine ⟨if_pos hw, ?_, ?_⟩
    · rw [hifid, ← hw]
      rfl
    · exact List.mem_cons.mpr (.inl hctl)

/-- Settles O37: the front end is frozen, and a store elsewhere leaves the word under `pc`. -/
theorem canonicalHaltHoldsTheCounter : Obligations.CanonicalHaltHoldsTheCounter := by
  intro s t hifid hread h
  obtain ⟨hf, hw⟩ := Memory.read_eq_some.mp hread
  obtain ⟨hpc, hkept, hrow⟩ := step_halt_frontEnd hifid hw h
  refine ⟨hpc, hkept, hrow, fun hstore => ?_⟩
  rw [hpc, step_mem h]
  refine Memory.read_eq_some.mpr ⟨?_, (State.wordAt_memAfter_ne hstore).trans hw⟩
  rw [Memory.inBounds, State.memAfter_words]
  exact hf

/-! ## The slots of a run (R163, R174) -/

/-- Settles O50: the rows are eighteen constants. -/
theorem onlyTheZeroRowIsABubble : Obligations.OnlyTheZeroRowIsABubble := by
  unfold Obligations.OnlyTheZeroRowIsABubble
  decide

/-- The control signals in flight, the oldest slot first: what MEM/WB holds in this cycle and, where nothing stalls, in the next
three. -/
def State.inFlight (s : State) : List Controls :=
  [s.memwb.ctl, s.exmem.ctl, s.idex.ctl, (rawSlot params s.ifid).ctl]

/-- A step moves the signals on by one slot; a stall puts a bubble in the place of the word in Decode. -/
theorem inFlight_of_step {s t : State} (h : step s = .next t) : ∃ c ∈ [Controls.zero, (rawSlot params s.ifid).ctl],
    t.inFlight = [s.exmem.ctl, s.idex.ctl, c, (rawSlot params t.ifid).ctl] := by
  by_cases hz : s.Stalls s.ifid.instr
  · obtain rfl := step_of_stalls h hz
    exact ⟨Controls.zero, by simp, rfl⟩
  · obtain ⟨pc, ifid, rfl⟩ := step_of_not_stalls h hz
    exact ⟨(rawSlot params s.ifid).ctl, by simp, rfl⟩

/-- The next `n` slots that Writeback works on are bubbles. -/
def State.BubblesFor (n : Nat) (s : State) : Prop := ∀ c ∈ s.inFlight.take n, c = Controls.zero

/-- Every slot in flight has the signals of a row of the control table (R46 (c)). -/
def State.RowsInFlight (s : State) : Prop := ∀ c ∈ s.inFlight, c ∈ controlRows

theorem rawSlot_ctl_mem_controlRows (s : State) : (rawSlot params s.ifid).ctl ∈ controlRows := by
  cases h : s.instrInDecode with
  | none =>
    rw [rawSlot_of_none h]
    exact zero_mem_controlRows
  | some i =>
    obtain ⟨hv, hi⟩ := State.instrInDecode_eq_some.mp h
    rw [rawSlot_of_encodeWith (by decide) hv (encodeWith_of_decodeWith hi).symm]
    exact rowOf_mem i

section
variable {s t : State}

theorem State.BubblesFor.memwb {n : Nat} (hb : s.BubblesFor (n + 1)) : s.memwb.ctl = Controls.zero :=
  hb _ List.mem_cons_self

/-- What follows is a bubble too: the slots in flight go on by one place, and what Decode lets through of a bubble, itself or the
bubble of a stall, is one. -/
theorem State.BubblesFor.of_step {n : Nat} (hn : n ≤ 3) (hb : s.BubblesFor (n + 1)) (h : step s = .next t) :
    t.BubblesFor n := by
  obtain ⟨c, hc, ht⟩ := inFlight_of_step h
  have hdecoded (hraw : (rawSlot params s.ifid).ctl = Controls.zero) : c = Controls.zero := by
    rw [hraw] at hc
    simpa only [List.mem_cons, List.not_mem_nil, or_false, or_self] using hc
  rw [State.BubblesFor, State.inFlight] at hb
  rw [State.BubblesFor, ht]
  interval_cases n <;> simp only [List.take_succ_cons, List.take_zero, List.forall_mem_cons] at hb ⊢
  · exact hb.2
  · exact hb.2
  · exact hb.2
  · obtain ⟨-, hexmem, hidex, hraw, hnil⟩ := hb
    exact ⟨hexmem, hidex, hdecoded hraw, hnil⟩

theorem State.RowsInFlight.of_step (hr : s.RowsInFlight) (h : step s = .next t) : t.RowsInFlight := by
  obtain ⟨c, hc, ht⟩ := inFlight_of_step h
  have hraw := rawSlot_ctl_mem_controlRows t
  have hrow : c ∈ controlRows := by
    simp only [List.mem_cons, List.not_mem_nil, or_false] at hc
    obtain rfl | rfl := hc
    · exact zero_mem_controlRows
    · exact rawSlot_ctl_mem_controlRows s
  rw [State.RowsInFlight, State.inFlight] at hr
  rw [State.RowsInFlight, ht]
  simp only [List.forall_mem_cons] at hr ⊢
  obtain ⟨-, hexmem, hidex, -⟩ := hr
  exact ⟨hexmem, hidex, hrow, hraw, List.forall_mem_nil _⟩

/-! ## A run of `k` cycles -/

theorem State.cycles_succ {k : Nat} (h : State.cycles (k + 1) s = .next t) :
    ∃ u, step s = .next u ∧ State.cycles k u = .next t := by
  rw [State.cycles] at h
  split at h
  · exact ⟨_, ‹_›, h⟩
  · cases h
  · cases h

theorem State.slots_succ (k : Nat) (h : step s = .next t) : State.slots (k + 1) s = s.memwb.ctl :: State.slots k t := by
  rw [State.slots, h]

end

theorem State.length_slots {k : Nat} {s t : State} (h : State.cycles k s = .next t) : (State.slots k s).length = k := by
  induction k generalizing s with
  | zero => rfl
  | succ k ih =>
    obtain ⟨u, hstep, hu⟩ := State.cycles_succ h
    rw [State.slots_succ k hstep, List.length_cons, ih hu]

theorem State.slots_subset_controlRows {k : Nat} {s t : State} (hr : s.RowsInFlight) (h : State.cycles k s = .next t) :
    ∀ c ∈ State.slots k s, c ∈ controlRows := by
  induction k generalizing s with
  | zero => exact List.forall_mem_nil _
  | succ k ih =>
    obtain ⟨u, hstep, hu⟩ := State.cycles_succ h
    rw [State.slots_succ k hstep]
    exact List.forall_mem_cons.mpr ⟨hr _ List.mem_cons_self, ih (hr.of_step hstep) hu⟩

theorem State.take_slots_of_bubblesFor {n k : Nat} {s t : State} (hn : n ≤ 4) (hb : s.BubblesFor n)
    (h : State.cycles k s = .next t) : ∀ c ∈ (State.slots k s).take n, c = Controls.zero := by
  induction n generalizing k s with
  | zero => exact List.forall_mem_nil _
  | succ n ih =>
    cases k with
    | zero => exact List.forall_mem_nil _
    | succ k =>
      obtain ⟨u, hstep, hu⟩ := State.cycles_succ h
      rw [State.slots_succ k hstep, List.take_succ_cons]
      exact List.forall_mem_cons.mpr ⟨hb.memwb, ih (by omega) (hb.of_step (by omega) hstep) hu⟩

/-- With `n` bubbles ahead the core is not halted before `n` cycles. -/
theorem State.le_of_halted {n k : Nat} {s t : State} (hn : n ≤ 4) (hb : s.BubblesFor n) (h : State.cycles k s = .next t)
    (hhalt : t.halted = true) : n ≤ k := by
  induction n generalizing k s with
  | zero => exact Nat.zero_le k
  | succ n ih =>
    cases k with
    | zero =>
      obtain rfl := Host.Outcome.next.inj h
      rw [State.halted, hb.memwb] at hhalt
      cases hhalt
    | succ k =>
      obtain ⟨u, hstep, hu⟩ := State.cycles_succ h
      exact Nat.succ_le_succ (ih (by omega) (hb.of_step (by omega) hstep) hu)

/-- What a halted run has done (60_exceptions.md rule R318): some number of cycles, all counted, to a halted core, with a count
of those whose slot was no bubble. -/
theorem Driver.run_halted {n : Nat} {d₀ d : Driver} (h : Driver.run n d₀ = .halted d) :
    ∃ k, State.cycles k d₀.core = .next d.core ∧ d.core.halted = true ∧ d.cycles = d₀.cycles + k ∧
      d.retired = d₀.retired + (State.slots k d₀.core).countP (fun c => !c.isBubble) := by
  induction n generalizing d₀ with
  | zero =>
    rw [Driver.run, Driver.runWith] at h
    split at h <;> cases h
    exact ⟨0, rfl, ‹_›, rfl, rfl⟩
  | succ n ih =>
    rw [Driver.run, Driver.runWith] at h
    split at h
    case isTrue hhalt =>
      cases h
      exact ⟨0, rfl, hhalt, rfl, rfl⟩
    case isFalse =>
      split at h
      case h_1 t hstep =>
        obtain ⟨k, hcycles, hhalt, hcount, hretired⟩ := ih h
        refine ⟨k + 1, by rw [State.cycles, hstep]; exact hcycles, hhalt, by rw [hcount]; dsimp only; omega, ?_⟩
        rw [hretired, State.slots_succ k hstep, List.countP_cons, State.isBubble]
        cases d₀.core.memwb.ctl.isBubble with
        | true => rfl
        | false => exact Nat.add_right_comm ..
      all_goals cases h

/-- Counting what is no bubble is counting what is not the all-zero row, on slots that hold rows. -/
theorem countP_not_isBubble {l : List Controls} (h : ∀ c ∈ l, c ∈ controlRows) :
    l.countP (fun c => !c.isBubble) = l.countP (fun c => c ≠ Controls.zero) := by
  refine List.countP_congr fun c hc => ?_
  have hrow := onlyTheZeroRowIsABubble c (h c hc)
  simp [← hrow]

theorem length_eq_countP_add_count (l : List Controls) :
    l.length = l.countP (fun c => c ≠ Controls.zero) + l.count Controls.zero := by
  rw [l.length_eq_countP_add_countP (fun c => c ≠ Controls.zero), List.count]
  congr 1
  exact List.countP_congr fun c _ => by simp

/-- After reset four bubbles are in flight (R340, R341), whatever the memory is. -/
theorem inFlight_reset (m : Memory) :
    ({ State.reset with mem := m } : State).inFlight = List.replicate 4 Controls.zero := rfl

/-- Settles O51: reset leaves four bubbles in flight, so the run ends no earlier than behind them, and each later slot is retired
or is one of the B. -/
theorem fourCyclesOfOverhead : Obligations.FourCyclesOfOverhead := by
  intro m n d s h
  have hzero : ∀ c ∈ s.inFlight, c = Controls.zero := inFlight_reset m ▸ fun c => List.eq_of_mem_replicate
  have hbubbles : s.BubblesFor 4 := fun c hc => hzero c (List.mem_of_mem_take hc)
  have hrows : s.RowsInFlight := fun c hc => hzero c hc ▸ zero_mem_controlRows
  obtain ⟨k, hcycles, hhalt, hcount, hretired⟩ := Driver.run_halted h
  obtain rfl : d.cycles = k := hcount.trans (Nat.zero_add k)
  intro slots
  have hlength : slots.length = d.cycles := State.length_slots hcycles
  have hfour : 4 ≤ slots.length := hlength ▸ State.le_of_halted (Nat.le_refl 4) hbubbles hcycles hhalt
  have htake : slots.take 4 = List.replicate 4 Controls.zero :=
    List.eq_replicate_iff.mpr ⟨List.length_take_of_le hfour, State.take_slots_of_bubblesFor (Nat.le_refl 4) hbubbles hcycles⟩
  have hcountP : d.retired = slots.countP (fun c => c ≠ Controls.zero) :=
    (hretired.trans (Nat.zero_add _)).trans (countP_not_isBubble (State.slots_subset_controlRows hrows hcycles))
  have hzeros : slots.count Controls.zero = 4 + (slots.drop 4).count Controls.zero := by
    conv_lhs => rw [← List.take_append_drop 4 slots, List.count_append, htake, List.count_replicate_self]
  refine ⟨hlength, htake, hcountP, ?_⟩
  rw [← hlength, length_eq_countP_add_count, hzeros, ← hcountP]
  omega

end Sys2Proof.Machine
end

-- Proofs of the statements about the register-register ALU instructions (41_alu_register.md rules R200 to R209), and what they
-- need of an instruction that runs alone (45_halt_nop.md rule R286) and of an ALU instruction in general.
section
namespace Sys2Proof.Machine

/-! ## Slots without an effect -/

section
variable {s : State}

theorem State.regsAfterWriteback_of_not_regWrite (h : s.memwb.ctl.regWrite = false) : s.regsAfterWriteback = s.regs := by
  rw [State.regsAfterWriteback, h]
  rfl

theorem State.memAfter_of_not_memWrite (h : s.exmem.ctl.memWrite = false) : s.memAfter = s.mem := by
  rw [State.memAfter, h]
  rfl

theorem forward_of_not_regWrite {e : ExMem} {m : MemWb} (he : e.ctl.regWrite = false) (hm : m.ctl.regWrite = false) (r : RegId)
    (raw : Word) : forward e m r raw = raw := by
  rw [forward, Slot.supplies_of_not_regWrite _ _ he, Slot.supplies_of_not_regWrite _ _ hm]
  rfl

/-- A slot with these signals accesses no memory in MemoryAccess (R158). -/
structure Controls.NoAccess (c : Controls) : Prop where
  memRead : c.memRead = false
  memWrite : c.memWrite = false

theorem Controls.noAccess_zero : Controls.zero.NoAccess := ⟨rfl, rfl⟩

theorem Controls.NoAccess.dataOk (h : s.exmem.ctl.NoAccess) : s.DataOk := by
  rintro (hr | hw)
  · exact absurd (hr.symm.trans h.memRead) (by decide)
  · exact absurd (hw.symm.trans h.memWrite) (by decide)

end

/-! ## `nop` words behind an instruction (45_halt_nop.md rule R286) -/

/-- At `a` and the word addresses behind it stand `n` words `nop`. -/
def Memory.NopsAt (m : Memory) : Nat → Word → Prop
  | 0, _ => True
  | n + 1, a => m.read a = some 0 ∧ m.NopsAt n (a + 4)

/-- Decode works on a `nop`, and the next `n` fetches find one. -/
structure State.NopsFollow (n : Nat) (s : State) : Prop where
  decode : s.ifid.instr = 0
  fetch : s.mem.NopsAt n s.pc

section
variable {s : State} {n : Nat}

theorem State.instrInDecode_eq_none_of_nop (h : s.ifid.instr = 0) : s.instrInDecode = none := by
  refine Option.eq_none_iff_forall_ne_some.mpr fun i hi => ?_
  have hdecode : decode 0 = .ok i := h ▸ (State.instrInDecode_eq_some.mp hi).2
  cases hdecode

/-- A cycle that fetches a `nop`, stores nothing and redirects nothing. -/
theorem State.sequel_nopsFollow (h : s.mem.NopsAt (n + 1) s.pc) (hw : s.exmem.ctl.memWrite = false) (e : IdEx) :
    (s.sequel e).pc = s.pc + 4 ∧ (s.sequel e).NopsFollow n := by
  obtain ⟨hread, hrest⟩ := h
  have hfetched : s.fetched = 0 := (Memory.read_eq_some.mp hread).2
  have hpc : (s.sequel e).pc = s.pc + 4 := if_neg (by rw [hfetched]; decide)
  refine ⟨hpc, hfetched, ?_⟩
  rw [hpc, State.sequel, State.advance_mem, State.memAfter_of_not_memWrite hw]
  exact hrest

/-- A step with a `nop` in Decode and under `pc`, and no access to memory in the two slots ahead. -/
theorem State.NopsFollow.step_next (h : s.NopsFollow (n + 1)) (hidex : s.idex.ctl.NoAccess) (hexmem : s.exmem.ctl.NoAccess) :
    ∃ t, step s = .next t ∧ t.idex.ctl = Controls.zero ∧ t.pc = s.pc + 4 ∧ t.NopsFollow n := by
  have hf : s.FetchOk := (Memory.read_eq_some.mp h.fetch.1).1
  obtain ⟨hpc, hnops⟩ := State.sequel_nopsFollow h.fetch hexmem.memWrite (s.decoded s.ifid.instr Controls.zero)
  exact ⟨_, wordsOfNoRowAreNoOps s (State.instrInDecode_eq_none_of_nop h.decode) hf hexmem.dataOk
    (State.not_stalls_of_not_memRead hidex.memRead _), rfl, hpc, hnops⟩

end

/-! ## What Execute makes of an instruction (R153, R154) -/

/-- The ALU result of instruction `i` on the register values `val`. -/
def aluResultOf (i : Instr) (val : RegId → Word) : Word :=
  alu (rowOf i).aluOp (val (Field.rs (encode i)))
    (if (rowOf i).aluSrc then (Field.imm (encode i)).signExtend 32 else val (Field.rt (encode i)))

/-- EX/MEM behind the Execute of instruction `i`: Decode read the registers `x`, and Execute worked on the values `val`. -/
def executedSlot (i : Instr) (x : RegFile) (val : RegId → Word) : ExMem :=
  ⟨(wordSlot params (encode i) (rowOf i)).toIdEx x, aluResultOf i val, val (Field.rt (encode i))⟩

/-- In any company Execute works on program-order values. -/
theorem Passes.exmem_eq_executedSlot {i : Instr} {s s₁ s₂ s₃ s₄ : State} (hp : Passes i s s₁ s₂ s₃ s₄) (hi : s.Inv)
    (hz : ¬ s.Stalls (encode i)) : s₂.exmem = executedSlot i s.regsAfterWriteback s.progVal :=
  hp.exmem hi hz

/-! ## An instruction alone in the pipeline -/

section
variable {i : Instr} {s s₁ s₂ s₃ s₄ : State}

theorem State.Alone.nopsAt (h : s.Alone) : s.mem.NopsAt 4 s.pc := by
  have hadd (a b : Word) : s.pc + a + b = s.pc + (a + b) := BitVec.add_assoc _ _ _
  refine ⟨h.word0, h.word1, ?_, ?_, trivial⟩
  · rw [hadd]
    exact h.word2
  · rw [hadd, hadd]
    exact h.word3

theorem State.Alone.regsAfterWriteback (h : s.Alone) : s.regsAfterWriteback = s.regs :=
  State.regsAfterWriteback_of_not_regWrite (by rw [h.memwb]; rfl)

theorem State.Alone.memAfter (h : s.Alone) : s.memAfter = s.mem :=
  State.memAfter_of_not_memWrite (by rw [h.exmem]; rfl)

theorem State.Alone.not_stalls (h : s.Alone) (w : Word) : ¬ s.Stalls w :=
  State.not_stalls_of_not_memRead (by rw [h.idex]; rfl) w

/-- An instruction that does not redirect is followed by `nop`. -/
theorem State.Alone.exec_next (h : s.Alone) (hb : (rowOf i).branch = false) (hj : (rowOf i).jump = false) :
    ∃ t, exec i s = .next t ∧ t.idex.ctl = rowOf i ∧ t.pc = s.pc + 4 ∧ t.NopsFollow 3 := by
  have hf : s.FetchOk := (Memory.read_eq_some.mp h.word0).1
  have hexmem : s.exmem.ctl.NoAccess := h.exmem ▸ Controls.noAccess_zero
  obtain ⟨hpc, hnops⟩ := State.sequel_nopsFollow h.nopsAt hexmem.memWrite
    ((wordSlot params (encode i) (rowOf i)).toIdEx s.regsAfterWriteback)
  refine ⟨_, (exec_eq i s).trans ?_, rfl, hpc, hnops⟩
  exact clockCycle_sequel (d := wordSlot params (encode i) (rowOf i)) hf hexmem.dataOk (h.not_stalls _)
    (by rw [wordSlot_ctl, hb, Bool.false_and]) hj

/-- What an instruction's Decode cycle leaves when it runs alone. -/
theorem State.Alone.advance_of_exec (h : s.Alone) (hexec : exec i s = .next s₁) :
    ∃ pc ifid, s₁ = s.advance pc ifid ((wordSlot params (encode i) (rowOf i)).toIdEx s.regs) := by
  rw [exec_eq] at hexec
  rw [← h.regsAfterWriteback]
  exact clockCycle_not_stalled (d := wordSlot params (encode i) (rowOf i)) (h.not_stalls _) hexec

section
variable (h : s.Alone) (hexec : exec i s = .next s₁)
include h hexec

theorem State.Alone.exmem_of_exec : s₁.exmem.ctl = Controls.zero := by
  obtain ⟨pc, ifid, rfl⟩ := h.advance_of_exec hexec
  exact h.idex

theorem State.Alone.memwb_of_exec : s₁.memwb.ctl = Controls.zero := by
  obtain ⟨pc, ifid, rfl⟩ := h.advance_of_exec hexec
  exact h.exmem

theorem State.Alone.regs_of_exec : s₁.regs = s.regs := by
  obtain ⟨pc, ifid, rfl⟩ := h.advance_of_exec hexec
  exact h.regsAfterWriteback

theorem State.Alone.mem_of_exec : s₁.mem = s.mem := by
  obtain ⟨pc, ifid, rfl⟩ := h.advance_of_exec hexec
  exact h.memAfter

end

/-- Without an access to memory and without a redirect the instruction and the `nop` words behind it pass all stages. -/
theorem State.Alone.passes (h : s.Alone) (hrow : (rowOf i).NoAccess) (hb : (rowOf i).branch = false)
    (hj : (rowOf i).jump = false) :
    ∃ s₁ s₂ s₃ s₄, Passes i s s₁ s₂ s₃ s₄ ∧ s₂.idex.ctl = Controls.zero ∧ s₄.pc = s.pc + 16 := by
  obtain ⟨s₁, hdecode, hidex₁, hpc₁, hnops₁⟩ := h.exec_next hb hj
  have hexmem₁ := h.exmem_of_exec hdecode
  obtain ⟨s₂, hexecute, hidex₂, hpc₂, hnops₂⟩ := hnops₁.step_next (hidex₁ ▸ hrow) (hexmem₁ ▸ Controls.noAccess_zero)
  have hexmem₂ : s₂.exmem.ctl = rowOf i := by
    rw [step_exmem hexecute]
    exact hidex₁
  obtain ⟨s₃, hmemory, hidex₃, hpc₃, hnops₃⟩ := hnops₂.step_next (hidex₂ ▸ Controls.noAccess_zero) (hexmem₂ ▸ hrow)
  have hexmem₃ : s₃.exmem.ctl = Controls.zero := by
    rw [step_exmem hmemory]
    exact hidex₂
  obtain ⟨s₄, hwriteback, -, hpc₄, -⟩ :=
    hnops₃.step_next (hidex₃ ▸ Controls.noAccess_zero) (hexmem₃ ▸ Controls.noAccess_zero)
  refine ⟨s₁, s₂, s₃, s₄, ⟨hdecode, hexecute, hmemory, hwriteback⟩, hidex₂, ?_⟩
  rw [hpc₄, hpc₃, hpc₂, hpc₁]
  bv_omega

theorem Passes.cycles (hp : Passes i s s₁ s₂ s₃ s₄) : State.cycles 3 s₁ = .next s₄ := by
  simp only [State.cycles, hp.execute, hp.memoryAccess, hp.writeback]

section
variable (hp : Passes i s s₁ s₂ s₃ s₄) (h : s.Alone)
include hp h

/-- Before its own Writeback only bubbles have been through Writeback. -/
theorem Passes.regs_of_alone : s₃.regs = s.regs := by
  have hmemwb₁ : s₁.memwb.ctl.regWrite = false := by rw [h.memwb_of_exec hp.decode]; rfl
  have hmemwb₂ : s₂.memwb.ctl.regWrite = false := by rw [step_memwb hp.execute, h.exmem_of_exec hp.decode]; rfl
  rw [step_regs hp.memoryAccess, State.regsAfterWriteback_of_not_regWrite hmemwb₂, step_regs hp.execute,
    State.regsAfterWriteback_of_not_regWrite hmemwb₁, h.regs_of_exec hp.decode]

/-- Before its own MemoryAccess only bubbles have been through MemoryAccess. -/
theorem Passes.mem_of_alone : s₂.mem = s.mem := by
  have hexmem₁ : s₁.exmem.ctl.memWrite = false := by rw [h.exmem_of_exec hp.decode]; rfl
  rw [step_mem hp.execute, State.memAfter_of_not_memWrite hexmem₁, h.mem_of_exec hp.decode]

/-- In its Execute nothing is forwarded to it. -/
theorem Passes.exmem_of_alone : s₂.exmem = executedSlot i s.regs (RegFile.read s.regs) := by
  have hexmem₁ : s₁.exmem.ctl.regWrite = false := by rw [h.exmem_of_exec hp.decode]; rfl
  have hmemwb₁ : s₁.memwb.ctl.regWrite = false := by rw [h.memwb_of_exec hp.decode]; rfl
  obtain ⟨pc, ifid, hs₁⟩ := h.advance_of_exec hp.decode
  rw [step_exmem hp.execute, State.execute, State.op2, State.op1, State.rtOperand, forward_of_not_regWrite hexmem₁ hmemwb₁,
    forward_of_not_regWrite hexmem₁ hmemwb₁, hs₁, executedSlot, aluResultOf, ← wordSlot_imm]
  rfl

end

/-! ## ALU instructions -/

/-- The signals of an ALU instruction: its ALU result goes to a register, and it neither accesses memory nor redirects (R98). -/
structure Controls.IsAlu (c : Controls) : Prop extends c.NoAccess where
  regWrite : c.regWrite = true
  memToReg : c.memToReg = false
  branch : c.branch = false
  jump : c.jump = false

/-- The ALU instruction `i` writes to `d` the value `f` makes of the values of the registers. -/
structure AluComputes (i : Instr) (d : RegId) (f : (RegId → Word) → Word) : Prop where
  isAlu : (rowOf i).IsAlu
  dest : (wordSlot params (encode i) (rowOf i)).dest = d
  result : ∀ val, aluResultOf i val = f val

section
variable {d : RegId} {f : (RegId → Word) → Word} (hf : AluComputes i d f)
include hf

/-- The last two cycles of an ALU instruction, from what is in EX/MEM behind its Execute. -/
theorem AluComputes.writes_of_exmem {x : RegFile} {val : RegId → Word} (hp : Passes i s s₁ s₂ s₃ s₄)
    (hexmem : s₂.exmem = executedSlot i x val) : RegsWritten s₃ s₄ d (f val) ∧ MemKept s₂ s₃ := by
  rw [executedSlot, hf.result] at hexmem
  have hmemwb := step_memwb hp.memoryAccess
  rw [hexmem] at hmemwb
  have hvalue : s₃.memwb.value = f val := by rw [hmemwb]; exact if_neg (Bool.not_eq_true _ ▸ hf.isAlu.memToReg)
  have hdest : s₃.memwb.dest = d := by rw [hmemwb]; exact hf.dest
  have hwritten := regsWritten_of_step hp.writeback (by rw [hmemwb]; exact hf.isAlu.regWrite)
  rw [hdest, hvalue] at hwritten
  exact ⟨hwritten, memKept_of_step hp.memoryAccess (by rw [hexmem]; exact hf.isAlu.memWrite)⟩

theorem AluComputes.writesInOrder (hi : s.Inv) (hz : ¬ s.Stalls (encode i)) : WritesInOrder i s d (f s.progVal) :=
  fun _ _ _ _ hp => hf.writes_of_exmem hp (hp.exmem_eq_executedSlot hi hz)

theorem AluComputes.writesAlone (h : s.Alone) : WritesAlone i s d (f (RegFile.read s.regs)) := by
  obtain ⟨s₁, s₂, s₃, s₄, hp, hidex, hpc⟩ := h.passes hf.isAlu.toNoAccess hf.isAlu.branch hf.isAlu.jump
  obtain ⟨hwritten, hkept⟩ := hf.writes_of_exmem hp (hp.exmem_of_alone h)
  have hmem : s₄.mem = s₃.mem := by
    rw [step_mem hp.writeback, State.memAfter_of_not_memWrite]
    rw [step_exmem hp.memoryAccess, State.execute_toIdEx, hidex]
    rfl
  rw [RegsWritten, hp.regs_of_alone h] at hwritten
  rw [MemKept, hp.mem_of_alone h, ← hmem] at hkept
  exact ⟨s₁, s₄, hp.decode, hp.cycles, hwritten, hkept, hpc⟩

end
end

/-! ## The six register-register instructions (R200 to R206) -/

section
variable {i : Instr} {rs rt rd : RegId} {shamt : Shamt}

/-- An R-format instruction with the signals of an ALU operation takes both operands from registers and writes `rd` (R200). -/
theorem aluComputes_encodeR {funct : Sel6} {op : BitVec 3} (henc : encode i = encodeR params.opcRtype rs rt rd shamt funct)
    (hrow : rowOf i = { regDst := true, regWrite := true, aluOp := op }) :
    AluComputes i rd fun x => alu op (x rs) (x rt) where
  isAlu := by
    rw [hrow]
    exact ⟨⟨rfl, rfl⟩, rfl, rfl, rfl, rfl⟩
  dest := by
    rw [henc, hrow, Slot.dest, wordSlot_rd, Field.rd_encodeR]
    rfl
  result val := by
    rw [aluResultOf, henc, hrow, Field.rs_encodeR, Field.rt_encodeR]
    rfl

theorem aluComputes_add : AluComputes (.add rs rt rd shamt) rd fun x => x rs + x rt :=
  aluComputes_encodeR (op := 0) rfl rfl

theorem aluComputes_sub : AluComputes (.sub rs rt rd shamt) rd fun x => x rs - x rt :=
  aluComputes_encodeR (op := 1) rfl rfl

theorem aluComputes_and : AluComputes (.and rs rt rd shamt) rd fun x => x rs &&& x rt :=
  aluComputes_encodeR (op := 2) rfl rfl

theorem aluComputes_or : AluComputes (.or rs rt rd shamt) rd fun x => x rs ||| x rt :=
  aluComputes_encodeR (op := 3) rfl rfl

theorem aluComputes_nor : AluComputes (.nor rs rt rd shamt) rd fun x => ~~~(x rs ||| x rt) :=
  aluComputes_encodeR (op := 4) rfl rfl

theorem aluComputes_slt : AluComputes (.slt rs rt rd shamt) rd fun x => if (x rs).toNat < (x rt).toNat then 1 else 0 :=
  aluComputes_encodeR (op := 5) rfl rfl

end

/-- Settles O22: each of the six operations on the register values, with only bubbles ahead to forward from. -/
theorem aluRegisterInstructionsComplete : Obligations.AluRegisterInstructionsComplete :=
  fun _ _ _ _ _ h => ⟨aluComputes_add.writesAlone h, aluComputes_sub.writesAlone h, aluComputes_and.writesAlone h,
    aluComputes_or.writesAlone h, aluComputes_nor.writesAlone h, aluComputes_slt.writesAlone h⟩

/-- Settles O23: each of the six operations on the program-order values. -/
theorem aluRegisterResultsInProgramOrder : Obligations.AluRegisterResultsInProgramOrder := by
  intro s rs rt rd shamt hi hz
  have hstall {i : Instr} {funct : Sel6} (henc : encode i = encodeR params.opcRtype rs rt rd shamt funct) :
      ¬ s.Stalls (encode i) := by
    rwa [State.Stalls, henc, Field.rs_encodeR, Field.rt_encodeR]
  exact ⟨aluComputes_add.writesInOrder hi (hstall rfl), aluComputes_sub.writesInOrder hi (hstall rfl),
    aluComputes_and.writesInOrder hi (hstall rfl), aluComputes_or.writesInOrder hi (hstall rfl),
    aluComputes_nor.writesInOrder hi (hstall rfl), aluComputes_slt.writesInOrder hi (hstall rfl)⟩

end Sys2Proof.Machine
end

-- Proofs of the statements about the register-immediate ALU instructions (42_alu_immediate.md rules R220 to R226).
section
namespace Sys2Proof.Machine

section
variable {i : Instr} {s : State} {opc : Sel6} {rs rt : RegId} {imm : Imm16}

/-- An I-format instruction with the signals of an ALU operation takes `rs` and the sign-extended immediate as operands and writes
`rt` (R220; decision D4 for `andi` and `ori`). -/
theorem aluComputes_encodeI {op : BitVec 3} (henc : encode i = encodeI opc rs rt imm)
    (hrow : rowOf i = { aluSrc := true, regWrite := true, aluOp := op }) :
    AluComputes i rt fun x => alu op (x rs) (imm.signExtend 32) where
  isAlu := by
    rw [hrow]
    exact ⟨⟨rfl, rfl⟩, rfl, rfl, rfl, rfl⟩
  dest := by
    rw [henc, hrow, Slot.dest, wordSlot_rt, Field.rt_encodeI]
    rfl
  result val := by
    rw [aluResultOf, henc, hrow, Field.rs_encodeI, Field.imm_encodeI]
    rfl

theorem aluComputes_addi : AluComputes (.addi rs rt imm) rt fun x => x rs + imm.signExtend 32 :=
  aluComputes_encodeI (op := 0) rfl rfl

theorem aluComputes_andi : AluComputes (.andi rs rt imm) rt fun x => x rs &&& imm.signExtend 32 :=
  aluComputes_encodeI (op := 2) rfl rfl

theorem aluComputes_ori : AluComputes (.ori rs rt imm) rt fun x => x rs ||| imm.signExtend 32 :=
  aluComputes_encodeI (op := 3) rfl rfl

theorem aluComputes_slti :
    AluComputes (.slti rs rt imm) rt fun x => if (x rs).toNat < (imm.signExtend 32 : Word).toNat then 1 else 0 :=
  aluComputes_encodeI (op := 5) rfl rfl

/-- The load-use check of an I-format word is that of its two register fields (R142). -/
theorem State.stalls_encodeI : s.Stalls (encodeI opc rs rt imm) ↔ s.LoadUse rs rt := by
  rw [State.Stalls, Field.rs_encodeI, Field.rt_encodeI]

end

/-- Settles O24: each of the four operations on the register value and the immediate, with only bubbles ahead to forward from. -/
theorem aluImmediateInstructionsComplete : Obligations.AluImmediateInstructionsComplete :=
  fun _ _ _ _ h => ⟨aluComputes_addi.writesAlone h, aluComputes_andi.writesAlone h, aluComputes_ori.writesAlone h,
    aluComputes_slti.writesAlone h⟩

/-- Settles O25: each of the four operations on the program-order value and the immediate. -/
theorem aluImmediateResultsInProgramOrder : Obligations.AluImmediateResultsInProgramOrder := by
  intro s rs rt imm hi hz
  have hstall {opc : Sel6} : ¬ s.Stalls (encodeI opc rs rt imm) := State.stalls_encodeI.not.mpr hz
  exact ⟨aluComputes_addi.writesInOrder hi hstall, aluComputes_andi.writesInOrder hi hstall,
    aluComputes_ori.writesInOrder hi hstall, aluComputes_slti.writesInOrder hi hstall⟩

end Sys2Proof.Machine
end

-- Proofs of the statements about the control transfers (43_branch_jump.md): `jr` (R146, R245), and that no transfer and no `halt`
-- writes a register or memory (R240; 45_halt_nop.md rule R280).
section
namespace Sys2Proof.Machine

/-! ## A jump to a register (R146) -/

theorem misaligned_eq_true {a : Word} : misaligned a = true ↔ a.toNat % 4 ≠ 0 := by
  rw [misaligned, bne_iff_ne]

/-- A jump to a register that is not held: its value is the target, unless it is misaligned. -/
theorem resolve_jumpRegister {d : Slot} {x : RegFile} {s : State} {w : Word} (hz : hazard s.idex d.rs d.rt = false)
    (hb : d.ctl.branch = false) (hj : d.ctl.jump = true) (hs : d.ctl.jumpSrc = true) :
    resolve d x s w =
      if misaligned (RegFile.read x d.rs) then .error (.misalignedJumpRegister (RegFile.read x d.rs))
      else .ok ⟨RegFile.read x d.rs, IfId.zero, d.toIdEx x⟩ := by
  rw [resolve, hz, hb, hj, hs]
  rfl

/-- A Fatal of Decode comes behind Fetch's and ahead of MemoryAccess's (60_exceptions.md rule R305). -/
theorem clockCycle_of_resolve_error {d : Slot} {s : State} {f : Fault} (hf : s.FetchOk)
    (h : resolve d s.regsAfterWriteback s s.fetched = .error f) : clockCycle d s = .fault f := by
  simp only [clockCycle, State.read_fetched hf, h]

/-- Settles O33: the alignment of the register value decides between the two answers of Decode, and MemoryAccess is asked for its
access only behind the first. -/
theorem jumpRegisterGoesToItsRegister : Obligations.JumpRegisterGoesToItsRegister := by
  intro s rs rt rd shamt hf hz
  have hrs : Field.rs (encode (.jr rs rt rd shamt)) = rs := Field.rs_encodeR ..
  have hrt : Field.rt (encode (.jr rs rt rd shamt)) = rt := Field.rt_encodeR ..
  have hresolve := resolve_jumpRegister (d := wordSlot params (encode (.jr rs rt rd shamt)) Row.jr) (s := s)
    (x := s.regsAfterWriteback) (w := s.fetched) (by rw [wordSlot_rs, wordSlot_rt, hrs, hrt]; exact State.not_loadUse_iff.mp hz)
    rfl rfl rfl
  rw [wordSlot_rs, hrs] at hresolve
  rw [exec_eq, rowOf]
  refine ⟨fun ha hd => ?_, fun hm => clockCycle_of_resolve_error hf (hresolve.trans (if_pos (misaligned_eq_true.mpr hm)))⟩
  have haligned : misaligned (RegFile.read s.regsAfterWriteback rs) = false := misaligned_eq_false.mpr ha
  rw [clockCycle_of_ok hf hd, hresolve, haligned]
  rfl

/-! ## Instructions that write nothing (R240; 45_halt_nop.md rule R280) -/

/-- A slot with these signals stores nothing in MemoryAccess and writes no register in Writeback (R158, R160). -/
structure Controls.WritesNothing (c : Controls) : Prop where
  memWrite : c.memWrite = false
  regWrite : c.regWrite = false

/-- The rows of the transfers and of `halt` have neither write signal (R98). -/
theorem rowOf_writesNothing {i : Instr}
    (h : i.mnemonic = "beq" ∨ i.mnemonic = "bne" ∨ i.mnemonic = "j" ∨ i.mnemonic = "jr" ∨ i.mnemonic = "halt") :
    (rowOf i).WritesNothing := by
  cases i with
  | beq | bne | j | jr | halt => exact ⟨rfl, rfl⟩
  | _ => exact absurd h (by simp [Instr.mnemonic])

/-- A cycle puts into ID/EX the signals of the word in Decode, or a stall bubble's. -/
theorem clockCycle_idex_ctl {d : Slot} {s t : State} (h : clockCycle d s = .next t) :
    t.idex.ctl = d.ctl ∨ t.idex.ctl = Controls.zero := by
  obtain ⟨hf, hd, -⟩ := clockCycle_next h
  by_cases hz : s.LoadUse d.rs d.rt
  · rw [clockCycle_stall hf hd hz] at h
    obtain rfl := Host.Outcome.next.inj h
    exact .inr rfl
  · obtain ⟨pc, ifid, rfl⟩ := clockCycle_not_stalled hz h
    exact .inl rfl

/-- The slot that an instruction's Decode cycle leaves, its own or a stall bubble, stands in EX/MEM behind Execute. -/
theorem Passes.exmem_ctl {i : Instr} {s s₁ s₂ s₃ s₄ : State} (hp : Passes i s s₁ s₂ s₃ s₄) :
    s₂.exmem.ctl = rowOf i ∨ s₂.exmem.ctl = Controls.zero := by
  rw [step_exmem hp.execute, State.execute_toIdEx]
  exact clockCycle_idex_ctl (exec_eq i s ▸ hp.decode)

/-- Settles O34: held or not, the instruction's cycles in MemoryAccess and Writeback work on a slot without a write signal. -/
theorem transfersAndHaltWriteNothing : Obligations.TransfersAndHaltWriteNothing := by
  intro i s s₁ s₂ s₃ s₄ hi hp
  have hslot : s₂.exmem.ctl.WritesNothing := by
    obtain h | h := hp.exmem_ctl <;> rw [h]
    · exact rowOf_writesNothing hi
    · exact ⟨rfl, rfl⟩
  exact ⟨memKept_of_step hp.memoryAccess hslot.memWrite,
    regsKept_of_step hp.writeback (by rw [step_memwb hp.memoryAccess]; exact hslot.regWrite)⟩

end Sys2Proof.Machine
end

-- Proofs of the statements about a load or a store that runs alone (44_load_store.md rules R260 to R262).
section
namespace Sys2Proof.Machine

/-! ## Accesses outside the image (20_memory.md rules R61, R62) -/

section
variable {s : State} (hb : ¬ s.mem.inBounds s.exmem.aluResult)
include hb

theorem State.loadResult_outside (hr : s.exmem.ctl.memRead = true) :
    s.loadResult = .error (.outOfBounds .load s.exmem.aluResult) := by
  rw [State.loadResult, if_pos hr, Memory.read_eq_none.mpr hb]

theorem State.storeResult_outside (hw : s.exmem.ctl.memWrite = true) :
    s.storeResult = .error (.outOfBounds .store s.exmem.aluResult) := by
  rw [State.storeResult, if_pos hw, Memory.write_eq_none.mpr hb]

end

/-- A Fatal of MemoryAccess comes behind Fetch's and Decode's, the load's ahead of the store's (60_exceptions.md rule R305). -/
theorem clockCycle_of_access_error {d : Slot} {s : State} {front : FrontEnd} {f : Fault} (hf : s.FetchOk)
    (hr : resolve d s.regsAfterWriteback s s.fetched = .ok front)
    (ha : s.loadResult = .error f ∨ (∃ v, s.loadResult = .ok v) ∧ s.storeResult = .error f) : clockCycle d s = .fault f := by
  obtain hload | ⟨⟨v, hload⟩, hstore⟩ := ha
  · simp only [clockCycle, State.read_fetched hf, hr, hload]
  · simp only [clockCycle, State.read_fetched hf, hr, hload, hstore]

theorem State.cycles_two_of_fault {s t : State} {f : Fault} (h : step s = .next t) (hf : step t = .fault f) :
    State.cycles 2 s = .fault f := by
  simp only [State.cycles, h, hf]

/-! ## `nop` words behind an access to memory

A load of register 0 holds the `nop` behind it off for one cycle, since `nop` names register 0 (R142, decision D23), and a store may
overwrite a `nop` that is not yet fetched; neither keeps the cycles from completing. -/

section
variable {s : State} {n : Nat}

theorem Memory.NopsAt.of_succ {m : Memory} {a : Word} (h : m.NopsAt (n + 1) a) : m.NopsAt n a := by
  induction n generalizing a with
  | zero => trivial
  | succ n ih => exact ⟨h.1, ih h.2⟩

theorem State.NopsFollow.fetchOk (h : s.NopsFollow (n + 1)) : s.FetchOk := (Memory.read_eq_some.mp h.fetch.1).1

/-- A cycle that fetches a `nop` and redirects nothing, whatever it stores. -/
theorem State.sequel_of_fetches_nop (h : s.mem.read s.pc = some 0) (e : IdEx) :
    (s.sequel e).pc = s.pc + 4 ∧ (s.sequel e).ifid.instr = 0 := by
  have hfetched : s.fetched = 0 := (Memory.read_eq_some.mp h).2
  exact ⟨if_neg (by rw [hfetched]; decide), hfetched⟩

/-- A step with a `nop` in Decode, held or not, and no access to memory in this cycle. -/
theorem State.NopsFollow.step_next_of_noAccess (h : s.NopsFollow (n + 1)) (hexmem : s.exmem.ctl.NoAccess) :
    ∃ t, step s = .next t ∧ t.idex.ctl = Controls.zero ∧ t.NopsFollow n := by
  have hnone := State.instrInDecode_eq_none_of_nop h.decode
  by_cases hz : s.Stalls s.ifid.instr
  · refine ⟨_, (step_of_none hnone).trans (clockCycle_stall h.fetchOk hexmem.dataOk hz), rfl, h.decode, ?_⟩
    rw [State.advance_mem, State.memAfter_of_not_memWrite hexmem.memWrite]
    exact h.fetch.of_succ
  · exact ⟨_, wordsOfNoRowAreNoOps s hnone h.fetchOk hexmem.dataOk hz, rfl,
      (State.sequel_nopsFollow h.fetch hexmem.memWrite _).2⟩

end

section
variable {s : State} (h : s.NopsFollow 2) (hidex : s.idex.ctl = Controls.zero)
include h hidex

/-- A cycle with an access inside the image, a bubble in Execute and a `nop` in Decode, and the cycle behind it. -/
theorem State.NopsFollow.steps_of_dataOk (hd : s.DataOk) :
    ∃ t u, step s = .next t ∧ step t = .next u ∧ u.mem = t.mem := by
  obtain ⟨hread, hread', -⟩ := h.fetch
  have hnext := wordsOfNoRowAreNoOps s (State.instrInDecode_eq_none_of_nop h.decode) h.fetchOk hd
    (State.not_stalls_of_not_memRead (by rw [hidex]; rfl) _)
  obtain ⟨hpc, hnop⟩ := State.sequel_of_fetches_nop hread (s.decoded s.ifid.instr Controls.zero)
  have hbubble : (s.sequel (s.decoded s.ifid.instr Controls.zero)).idex.ctl = Controls.zero := rfl
  generalize s.sequel (s.decoded s.ifid.instr Controls.zero) = t at hnext hpc hnop hbubble
  have hf : t.FetchOk := by
    rw [State.FetchOk, hpc, Memory.inBounds, step_mem hnext, State.memAfter_words]
    exact (Memory.read_eq_some.mp hread').1
  have hexmem : t.exmem.ctl = Controls.zero := by rw [step_exmem hnext, State.execute_toIdEx, hidex]
  have hlast := wordsOfNoRowAreNoOps t (State.instrInDecode_eq_none_of_nop hnop) hf (hexmem ▸ Controls.noAccess_zero).dataOk
    (State.not_stalls_of_not_memRead (by rw [hbubble]; rfl) _)
  exact ⟨t, _, hnext, hlast, State.memAfter_of_not_memWrite (by rw [hexmem]; rfl)⟩

/-- A cycle whose access raises a Fatal, with a bubble in Execute and a `nop` in Decode. -/
theorem State.NopsFollow.step_fault {f : Fault}
    (hf : s.loadResult = .error f ∨ (∃ v, s.loadResult = .ok v) ∧ s.storeResult = .error f) : step s = .fault f :=
  (step_of_none (State.instrInDecode_eq_none_of_nop h.decode)).trans
    (clockCycle_of_access_error h.fetchOk (resolve_sequel (hazard_of_not_memRead (by rw [hidex]; rfl) _ _) rfl rfl) hf)

end

/-! ## An access of an instruction that runs alone -/

/-- What `t`, behind the Execute of an instruction `i` that was decoded alone in `s`, hands to the cycle of its MemoryAccess: `i` is
in EX/MEM, the memory is that of `s`, and a bubble and `nop` words follow. -/
structure ExecutedAlone (i : Instr) (s t : State) : Prop where
  exmem : t.exmem = executedSlot i s.regs (RegFile.read s.regs)
  mem : t.mem = s.mem
  idex : t.idex.ctl = Controls.zero
  nops : t.NopsFollow 2

section
variable {i : Instr} {s : State}

/-- An instruction that does not redirect reaches MemoryAccess, whether or not it holds the first `nop` off. -/
theorem State.Alone.executes (h : s.Alone) (hb : (rowOf i).branch = false) (hj : (rowOf i).jump = false) :
    ∃ s₁ s₂, exec i s = .next s₁ ∧ step s₁ = .next s₂ ∧ ExecutedAlone i s s₂ := by
  obtain ⟨s₁, hdecode, -, -, hnops₁⟩ := h.exec_next hb hj
  have hexmem₁ := h.exmem_of_exec hdecode
  have hforward := forward_of_not_regWrite (e := s₁.exmem) (m := s₁.memwb) (by rw [hexmem₁]; rfl)
    (by rw [h.memwb_of_exec hdecode]; rfl)
  obtain ⟨s₂, hexecute, hidex₂, hnops₂⟩ := hnops₁.step_next_of_noAccess (hexmem₁ ▸ Controls.noAccess_zero)
  refine ⟨s₁, s₂, hdecode, hexecute, ?_, ?_, hidex₂, hnops₂⟩
  · obtain ⟨pc, ifid, rfl⟩ := h.advance_of_exec hdecode
    rw [step_exmem hexecute, State.execute, State.op2, State.op1, State.rtOperand, hforward, hforward, executedSlot,
      aluResultOf, ← wordSlot_imm]
    rfl
  · rw [step_mem hexecute, State.memAfter_of_not_memWrite (by rw [hexmem₁]; rfl), h.mem_of_exec hdecode]

/-- With its address inside the image an instruction that runs alone passes all stages, and its Writeback leaves the memory of its
MemoryAccess. -/
theorem State.Alone.passes_of_inBounds (h : s.Alone) (hb : (rowOf i).branch = false) (hj : (rowOf i).jump = false)
    (hin : s.mem.inBounds (aluResultOf i (RegFile.read s.regs))) :
    ∃ s₁ s₂ s₃ s₄, Passes i s s₁ s₂ s₃ s₄ ∧ s₄.mem = s₃.mem := by
  obtain ⟨s₁, s₂, hdecode, hexecute, hs₂⟩ := h.executes hb hj
  have hd : s₂.DataOk := fun _ => by
    rw [hs₂.mem, hs₂.exmem]
    exact hin
  obtain ⟨s₃, s₄, hmemory, hwriteback, hmem⟩ := hs₂.nops.steps_of_dataOk hs₂.idex hd
  exact ⟨s₁, s₂, s₃, s₄, ⟨hdecode, hexecute, hmemory, hwriteback⟩, hmem⟩

end

/-! ## `lw` and `sw` alone (R260 to R262) -/

section
variable {i : Instr} {opc : Sel6} {rs rt : RegId} {imm : Imm16}

/-- Execute forms the effective address of a load or a store from `rs` and the sign-extended displacement (R260). -/
theorem executedSlot_encodeI (henc : encode i = encodeI opc rs rt imm) (hsrc : (rowOf i).aluSrc = true)
    (hadd : (rowOf i).aluOp = 0#3) (x : RegFile) (val : RegId → Word) :
    executedSlot i x val = ⟨(iSlot params opc rs rt imm (rowOf i)).toIdEx x, val rs + imm.signExtend 32, val rt⟩ := by
  rw [executedSlot, aluResultOf, hadd, alu_add, if_pos hsrc, henc, wordSlot_encodeI, Field.rs_encodeI, Field.rt_encodeI,
    Field.imm_encodeI]

theorem aluResultOf_encodeI (henc : encode i = encodeI opc rs rt imm) (hsrc : (rowOf i).aluSrc = true)
    (hadd : (rowOf i).aluOp = 0#3) (val : RegId → Word) : aluResultOf i val = val rs + imm.signExtend 32 :=
  congrArg ExMem.aluResult (executedSlot_encodeI henc hsrc hadd (Vector.replicate 32 0) val)

end

/-- Settles O26: MemoryAccess reads the word at the effective address, and Writeback writes it to `rt`. -/
theorem loadCompletes : Obligations.LoadCompletes := by
  intro s rs rt imm h ea hin
  obtain ⟨s₁, s₂, s₃, s₄, hp, hmem⟩ := h.passes_of_inBounds (i := .lw rs rt imm) rfl rfl
    (by rwa [aluResultOf_encodeI rfl rfl rfl])
  have hslot := (hp.exmem_of_alone h).trans (executedSlot_encodeI rfl rfl rfl _ _)
  have hmemwb := step_memwb hp.memoryAccess
  rw [hslot, State.memResultAfter, hp.mem_of_alone h, hslot] at hmemwb
  have hwritten := regsWritten_of_step hp.writeback (by rw [hmemwb]; rfl)
  rw [RegsWritten, hp.regs_of_alone h, hmemwb] at hwritten
  have hkept := memKept_of_step hp.memoryAccess (by rw [hslot]; rfl)
  rw [MemKept, hp.mem_of_alone h, ← hmem] at hkept
  exact ⟨s₁, s₄, hp.decode, hp.cycles, hwritten, hkept⟩

/-- Settles O27: MemoryAccess stores `x[rt]` in the word at the effective address, and Writeback writes nothing. -/
theorem storeCompletes : Obligations.StoreCompletes := by
  intro s rs rt imm h hwf ea hin
  obtain ⟨s₁, s₂, s₃, s₄, hp, hmem⟩ := h.passes_of_inBounds (i := .sw rs rt imm) rfl rfl
    (by rwa [aluResultOf_encodeI rfl rfl rfl])
  have hslot := (hp.exmem_of_alone h).trans (executedSlot_encodeI rfl rfl rfl _ _)
  have hstored := wordStored_of_step hp.memoryAccess (by rwa [hp.mem_of_alone h]) (by rw [hslot]; rfl)
  rw [WordStored, hp.mem_of_alone h, hslot] at hstored
  have hkept := regsKept_of_step hp.writeback (by rw [step_memwb hp.memoryAccess, hslot]; rfl)
  rw [RegsKept, hp.regs_of_alone h] at hkept
  have hcycles : State.cycles 2 s₁ = .next s₃ := by simp only [State.cycles, hp.execute, hp.memoryAccess]
  exact ⟨s₁, s₃, s₄, hp.decode, hcycles, hp.writeback, hstored, ⟨by rw [hmem], fun a => by rw [hmem]⟩, hkept⟩

/-- Settles O28: the effective address is formed in Execute, and the access of MemoryAccess there is Fatal. -/
theorem accessOutsideTheImageIsFatal : Obligations.AccessOutsideTheImageIsFatal := by
  intro s rs rt imm h ea hout
  constructor
  · obtain ⟨s₁, s₂, hdecode, hexecute, hs₂⟩ := h.executes (i := .lw rs rt imm) rfl rfl
    have hslot := hs₂.exmem.trans (executedSlot_encodeI rfl rfl rfl _ _)
    have hload := State.loadResult_outside (s := s₂) (by rwa [hs₂.mem, hslot]) (by rw [hslot]; rfl)
    rw [hslot] at hload
    exact ⟨s₁, hdecode, State.cycles_two_of_fault hexecute (hs₂.nops.step_fault hs₂.idex (.inl hload))⟩
  · obtain ⟨s₁, s₂, hdecode, hexecute, hs₂⟩ := h.executes (i := .sw rs rt imm) rfl rfl
    have hslot := hs₂.exmem.trans (executedSlot_encodeI rfl rfl rfl _ _)
    have hload : s₂.loadResult = .ok s₂.memwb.memResult := if_neg (by rw [hslot]; exact Bool.false_ne_true)
    have hstore := State.storeResult_outside (s := s₂) (by rwa [hs₂.mem, hslot]) (by rw [hslot]; rfl)
    rw [hslot] at hstore
    exact ⟨s₁, hdecode, State.cycles_two_of_fault hexecute (hs₂.nops.step_fault hs₂.idex (.inr ⟨⟨_, hload⟩, hstore⟩))⟩

end Sys2Proof.Machine
end

-- Proof of the statement about a `halt` that runs alone (45_halt_nop.md rules R280, R281).
section
namespace Sys2Proof.Machine

/-! ## `halt` alone (R162, R280, R281) -/

/-- A bubble in MEM/WB does not halt the core (R162). -/
theorem State.not_halted_of_bubble {s : State} (h : s.memwb.ctl = Controls.zero) : s.halted = false := by
  rw [State.halted, h]
  rfl

/-- Settles O35: only bubbles stand in MEM/WB ahead of `halt`, and neither they nor `halt` itself, whatever its 26 bits are, write a
register or memory. -/
theorem haltCompletes : Obligations.HaltCompletes := by
  intro s code h
  obtain ⟨s₁, s₂, s₃, s₄, hp, -, -⟩ := h.passes (i := .halt code) ⟨rfl, rfl⟩ rfl rfl
  have hmemwb₂ : s₂.memwb.ctl = Controls.zero := by
    rw [step_memwb hp.execute]
    exact h.exmem_of_exec hp.decode
  have hhalted : s₃.halted = true :=
    haltReachesWriteback s s₁ s₂ s₃ code (h.not_stalls _) hp.decode hp.execute hp.memoryAccess
  have hregs : RegsKept s s₃ := fun r => by rw [hp.regs_of_alone h]
  have hmem : MemKept s₂ s₃ := (transfersAndHaltWriteNothing (.halt code) s s₁ s₂ s₃ s₄ (by simp [Instr.mnemonic]) hp).1
  rw [MemKept, hp.mem_of_alone h] at hmem
  exact ⟨s₁, s₂, s₃, hp.decode, hp.execute, hp.memoryAccess, State.not_halted_of_bubble (h.memwb_of_exec hp.decode),
    State.not_halted_of_bubble hmemwb₂, hhalted, hregs, hmem⟩

end Sys2Proof.Machine
end

-- Proof of the statement about the Fatal conditions and their order within a cycle (60_exceptions.md rules R301, R305).
section
namespace Sys2Proof.Machine

/-! ## The Fatal of Decode (R146, R301) -/

theorem rawSlot_of_some {s : State} {i : Instr} (h : s.instrInDecode = some i) :
    rawSlot params s.ifid = wordSlot params (encode i) (rowOf i) := by
  obtain ⟨hv, hi⟩ := State.instrInDecode_eq_some.mp h
  exact rawSlot_of_encodeWith (by decide) hv (encodeWith_of_decodeWith hi).symm

/-- Only an instruction's row selects a register as the jump's target; a bubble or a word of no row has all signals 0. -/
theorem instrInDecode_eq_jr_of_jumpSrc {s : State} (h : (rawSlot params s.ifid).ctl.jumpSrc = true) :
    ∃ rs rt rd shamt, s.instrInDecode = some (.jr rs rt rd shamt) := by
  cases hi : s.instrInDecode with
  | none =>
    rw [rawSlot_of_none hi] at h
    cases h
  | some i =>
    rw [rawSlot_of_some hi] at h
    obtain ⟨rs, rt, rd, shamt, rfl⟩ := eq_jr_of_rowOf_jumpSrc h
    exact ⟨rs, rt, rd, shamt, rfl⟩

section
variable {s : State} {w : Word}

/-- Decode's response to a `jr` that is not held. -/
theorem resolve_rawSlot_of_jr {rs rt rd : RegId} {shamt : Shamt} (hi : s.instrInDecode = some (.jr rs rt rd shamt))
    (hz : ¬ s.Stalls s.ifid.instr) :
    resolve (rawSlot params s.ifid) s.regsAfterWriteback s w =
      if misaligned (s.decodeRead rs) then .error (.misalignedJumpRegister (s.decodeRead rs))
      else .ok ⟨s.decodeRead rs, IfId.zero, (rawSlot params s.ifid).toIdEx s.regsAfterWriteback⟩ := by
  have hslot := rawSlot_of_some hi
  have hrs : (rawSlot params s.ifid).rs = rs := by rw [hslot, wordSlot_rs]; exact Field.rs_encodeR ..
  rw [resolve_jumpRegister (State.not_stalls_iff.mp hz) (by rw [hslot]; rfl) (by rw [hslot]; rfl) (by rw [hslot]; rfl), hrs]
  rfl

/-- Decode raises a Fatal exactly for a `jr` that is not held, with a misaligned register. -/
theorem resolve_rawSlot_eq_error_iff {f : Fault} :
    resolve (rawSlot params s.ifid) s.regsAfterWriteback s w = .error f ↔
      ∃ rs rt rd shamt, s.instrInDecode = some (.jr rs rt rd shamt) ∧ ¬ s.Stalls s.ifid.instr ∧
        (s.decodeRead rs).toNat % 4 ≠ 0 ∧ f = .misalignedJumpRegister (s.decodeRead rs) := by
  constructor
  · intro h
    obtain ⟨hhazard, hsrc, -⟩ := resolve_error h
    obtain ⟨rs, rt, rd, shamt, hi⟩ := instrInDecode_eq_jr_of_jumpSrc hsrc
    have hz : ¬ s.Stalls s.ifid.instr := State.not_stalls_iff.mpr hhazard
    rw [resolve_rawSlot_of_jr hi hz] at h
    split at h
    case isTrue hm =>
      exact ⟨rs, rt, rd, shamt, hi, hz, misaligned_eq_true.mp hm, (Except.error.inj h).symm⟩
    case isFalse => cases h
  · rintro ⟨rs, rt, rd, shamt, hi, hz, hm, rfl⟩
    rw [resolve_rawSlot_of_jr hi hz, if_pos (misaligned_eq_true.mpr hm)]

/-- Decode raises no Fatal exactly when the register of a `jr` that is not held is aligned. -/
theorem resolve_rawSlot_ok_iff :
    (∃ front, resolve (rawSlot params s.ifid) s.regsAfterWriteback s w = .ok front) ↔
      ∀ rs rt rd shamt, s.instrInDecode = some (.jr rs rt rd shamt) → ¬ s.Stalls s.ifid.instr →
        (s.decodeRead rs).toNat % 4 = 0 := by
  constructor
  · rintro ⟨front, hfront⟩ rs rt rd shamt hi hz
    by_contra hm
    rw [resolve_rawSlot_eq_error_iff.mpr ⟨rs, rt, rd, shamt, hi, hz, hm, rfl⟩] at hfront
    cases hfront
  · intro haligned
    cases hr : resolve (rawSlot params s.ifid) s.regsAfterWriteback s w with
    | ok front => exact ⟨front, rfl⟩
    | error f =>
      obtain ⟨rs, rt, rd, shamt, hi, hz, hm, -⟩ := resolve_rawSlot_eq_error_iff.mp hr
      exact absurd (haligned rs rt rd shamt hi hz) hm

end

/-! ## The Fatal of MemoryAccess (R158, R301) -/

section
variable {s : State} {f : Fault}

theorem State.loadResult_eq_error_iff :
    s.loadResult = .error f ↔
      s.exmem.ctl.memRead = true ∧ ¬ s.mem.inBounds s.exmem.aluResult ∧ f = .outOfBounds .load s.exmem.aluResult := by
  constructor
  · intro h
    unfold State.loadResult at h
    split at h
    case isFalse => cases h
    case isTrue hr =>
      split at h
      · cases h
      · exact ⟨hr, Memory.read_eq_none.mp ‹_›, (Except.error.inj h).symm⟩
  · rintro ⟨hr, hb, rfl⟩
    exact State.loadResult_outside hb hr

theorem State.storeResult_eq_error_iff :
    s.storeResult = .error f ↔
      s.exmem.ctl.memWrite = true ∧ ¬ s.mem.inBounds s.exmem.aluResult ∧ f = .outOfBounds .store s.exmem.aluResult := by
  constructor
  · intro h
    unfold State.storeResult at h
    split at h
    case isFalse => cases h
    case isTrue hw =>
      split at h
      · cases h
      · exact ⟨hw, Memory.write_eq_none.mp ‹_›, (Except.error.inj h).symm⟩
  · rintro ⟨hw, hb, rfl⟩
    exact State.storeResult_outside hb hw

/-- With the address outside the image the load completes only by reading nothing. -/
theorem State.loadResult_ok_iff_of_outside (hb : ¬ s.mem.inBounds s.exmem.aluResult) :
    (∃ v, s.loadResult = .ok v) ↔ s.exmem.ctl.memRead = false := by
  cases hr : s.exmem.ctl.memRead with
  | true => simp [State.loadResult_outside hb hr]
  | false => simp [State.loadResult, hr]

/-- MemoryAccess raises a Fatal exactly for an access outside the image; load and store have one address, so the store raises its
own only where nothing is read. -/
theorem State.access_error_iff :
    s.loadResult = .error f ∨ (∃ v, s.loadResult = .ok v) ∧ s.storeResult = .error f ↔
      ¬ s.mem.inBounds s.exmem.aluResult ∧
        ((s.exmem.ctl.memRead = true ∧ f = .outOfBounds .load s.exmem.aluResult) ∨
          (s.exmem.ctl.memRead = false ∧ s.exmem.ctl.memWrite = true ∧ f = .outOfBounds .store s.exmem.aluResult)) := by
  rw [State.loadResult_eq_error_iff, State.storeResult_eq_error_iff]
  by_cases hb : s.mem.inBounds s.exmem.aluResult
  · simp only [hb, not_true_eq_false, false_and, and_false, or_self]
  · simp only [State.loadResult_ok_iff_of_outside hb, hb, not_false_eq_true, true_and]

end

/-! ## The first Fatal met ends the cycle (R305) -/

/-- Every Fatal a cycle can end in, in the order of the stages. -/
theorem clockCycle_eq_fault_iff {d : Slot} {s : State} {f : Fault} :
    clockCycle d s = .fault f ↔
      (¬ s.FetchOk ∧ f = .outOfBounds .fetch s.pc) ∨
      (s.FetchOk ∧
        (resolve d s.regsAfterWriteback s s.fetched = .error f ∨
          (∃ front, resolve d s.regsAfterWriteback s s.fetched = .ok front) ∧
            (s.loadResult = .error f ∨ (∃ v, s.loadResult = .ok v) ∧ s.storeResult = .error f))) := by
  by_cases hf : s.FetchOk
  case neg =>
    rw [clockCycle_of_not_fetchOk hf]
    simp only [hf, Host.Outcome.fault.injEq, eq_comm, not_false_eq_true, true_and, false_and, or_false]
  simp only [hf, not_true_eq_false, false_and, false_or, true_and]
  constructor
  · intro h
    rw [clockCycle, State.read_fetched hf] at h
    dsimp only at h
    split at h <;> rename_i hr
    · exact .inl (Host.Outcome.fault.inj h ▸ hr)
    split at h <;> rename_i hl
    · exact .inr ⟨⟨_, hr⟩, .inl (Host.Outcome.fault.inj h ▸ hl)⟩
    split at h <;> rename_i hs
    · exact .inr ⟨⟨_, hr⟩, .inr ⟨⟨_, hl⟩, Host.Outcome.fault.inj h ▸ hs⟩⟩
    · cases h
  · rintro (hr | ⟨⟨front, hr⟩, ha⟩)
    · exact clockCycle_of_resolve_error hf hr
    · exact clockCycle_of_access_error hf hr ha

/-- Settles O38: the stages are asked in order, and each stage's Fatal is the one of its own condition. -/
theorem fatalConditionsAndTheirPriority : Obligations.FatalConditionsAndTheirPriority := by
  intro s f
  rw [step_eq_clockCycle_rawSlot, clockCycle_eq_fault_iff, resolve_rawSlot_eq_error_iff, resolve_rawSlot_ok_iff,
    State.access_error_iff]

end Sys2Proof.Machine
end

-- Proofs of the statements about reset, cycle 1 and the ports (70_reset_and_hazards.md rules R340 to R345, R365).
section
namespace Sys2Proof.Machine

/-! ## The core at reset (R340, R341) -/

section
variable (s : State)

theorem State.read_resetCore (r : RegId) : RegFile.read s.resetCore.regs r = 0 := Vector.getElem_replicate r.isLt

/-- Held at reset, the core stays as it is. -/
theorem State.resetCore_resetCore : s.resetCore.resetCore = s.resetCore := rfl

theorem State.instrInDecode_resetCore : s.resetCore.instrInDecode = none := rfl

theorem State.resetCore_dataOk : s.resetCore.DataOk := Controls.NoAccess.dataOk Controls.noAccess_zero

theorem wordIndex_pcReset : wordIndex Config.pcReset = 1024 := by decide

theorem State.fetchOk_resetCore : s.resetCore.FetchOk ↔ 1025 ≤ s.mem.words := by
  change wordIndex Config.pcReset < s.mem.words ↔ _
  rw [wordIndex_pcReset, Nat.lt_iff_add_one_le]

theorem State.fetched_resetCore : s.resetCore.fetched = s.mem.wordAt 1024 := congrArg s.mem.wordAt wordIndex_pcReset

theorem State.decodeRead_resetCore (r : RegId) : s.resetCore.decodeRead r = 0 := s.read_resetCore r

theorem wordSlot_zero : wordSlot params 0 Controls.zero = Slot.zero := by decide

/-- Decode makes an all-zero ID/EX of the bubble in IF/ID: the fields of the word 0 are 0, and so are the registers. -/
theorem State.decoded_resetCore : s.resetCore.decoded s.resetCore.ifid.instr Controls.zero = IdEx.zero := by
  rw [State.decoded, State.decodeRead_resetCore, State.decodeRead_resetCore]
  exact congrArg (IdEx.mk · 0 0) wordSlot_zero

theorem State.op1_resetCore : s.resetCore.op1 = 0 := forward_zero _ _ _

theorem State.rtOperand_resetCore : s.resetCore.rtOperand = 0 := forward_zero _ _ _

theorem State.op2_resetCore : s.resetCore.op2 = 0 := s.rtOperand_resetCore

/-- Execute makes an all-zero EX/MEM of the bubble in ID/EX. -/
theorem State.execute_resetCore : s.resetCore.execute = ExMem.zero := by
  rw [State.execute, State.op1_resetCore, State.op2_resetCore, State.rtOperand_resetCore]
  rfl

/-- Behind Decode a cycle from reset works on bubbles and changes nothing. -/
theorem State.advance_resetCore (pc : Word) (f : IfId) :
    s.resetCore.advance pc f IdEx.zero = { s.resetCore with pc := pc, ifid := f } := by
  rw [State.advance, State.execute_resetCore]
  rfl

/-- Cycle 1 with the reset vector inside the image (R342, R345). -/
theorem State.step_resetCore (h : s.resetCore.FetchOk) :
    step s.resetCore = .next
      { s.resetCore with
        pc := if s.mem.wordAt 1024 = Config.haltWord then 0x00001000#32 else 0x00001004#32
        ifid := ⟨s.mem.wordAt 1024, 0x00001000#32, true⟩ } := by
  rw [wordsOfNoRowAreNoOps s.resetCore s.instrInDecode_resetCore h s.resetCore_dataOk
    (State.not_stalls_of_not_memRead rfl _), State.decoded_resetCore, State.sequel, State.advance_resetCore,
    State.fetched_resetCore]
  rfl

end

/-- Settles O49: the core boots with a bubble in every latch, so cycle 1 is Fetch's alone, and Fetch asks for word 1024. -/
theorem firstCycleFetchesTheResetVector : Obligations.FirstCycleFetchesTheResetVector := by
  intro bytes s
  have hfetch : s.FetchOk ↔ 1025 ≤ bytes.length / 4 := State.fetchOk_resetCore (State.reset.load bytes)
  refine ⟨fun h => ?_, fun h => State.step_resetCore (State.reset.load bytes) (hfetch.mpr h)⟩
  rw [step_eq_clockCycle_rawSlot, clockCycle_of_not_fetchOk (mt hfetch.mp (Nat.not_le.mpr h))]
  rfl

/-- Settles O48: the reset state is written out in the model; that each register is 0 holds of every core at reset. -/
theorem resetValues : Obligations.ResetValues :=
  ⟨rfl, State.read_resetCore State.reset, rfl, rfl, rfl, rfl, Clocked.isClean_start _, rfl, rfl⟩

/-- Settles O54: `resetCore` is the asserted input, for the core inside a cycle as well, and it takes the memory along. -/
theorem resetKeepsTheMemory : Obligations.ResetKeepsTheMemory := by
  intro s
  refine ⟨rfl, ⟨s.resetCore, rfl, rfl, rfl, s.read_resetCore, rfl, rfl, rfl, rfl, rfl, rfl, ?_⟩, ?_, fun bytes => rfl⟩
  · exact congrArg Host.Outcome.next s.resetCore_resetCore
  · rintro c rfl
    exact ⟨Clocked.isClean_start _, Clocked.reset_committed c⟩

/-! ## What the inputs say when the memory answers (R365) -/

section
variable {i : Inputs} {s : State}

theorem Inputs.Answers.fetchOutOfBounds_iff (h : i.Answers s.mem s.ports) : i.fetchOutOfBounds = true ↔ ¬ s.FetchOk :=
  h.fetchOutOfBounds.trans Memory.read_eq_none

theorem Inputs.Answers.fetchData_eq (h : i.Answers s.mem s.ports) (hf : s.FetchOk) : i.fetchData = s.fetched :=
  (Memory.read_eq_some.mp (h.fetchData hf)).2.symm

theorem Inputs.Answers.dataOutOfBounds_iff (h : i.Answers s.mem s.ports)
    (ha : s.exmem.ctl.memRead = true ∨ s.exmem.ctl.memWrite = true) :
    i.dataOutOfBounds = true ↔ ¬ s.mem.inBounds s.exmem.aluResult :=
  (h.dataOutOfBounds ha).trans Memory.read_eq_none

/-- The load of MemoryAccess is Fatal on the ports where its address is outside the image. -/
theorem Inputs.Answers.loadIsFatal_iff (h : i.Answers s.mem s.ports) :
    (s.exmem.ctl.memRead && i.dataOutOfBounds) = true ↔ s.exmem.ctl.memRead = true ∧ ¬ s.mem.inBounds s.exmem.aluResult := by
  rw [Bool.and_eq_true]
  exact and_congr_right fun hread => h.dataOutOfBounds_iff (.inl hread)

/-- So is the store. -/
theorem Inputs.Answers.storeIsFatal_iff (h : i.Answers s.mem s.ports) :
    (s.exmem.ctl.memWrite && i.dataOutOfBounds) = true ↔ s.exmem.ctl.memWrite = true ∧ ¬ s.mem.inBounds s.exmem.aluResult := by
  rw [Bool.and_eq_true]
  exact and_congr_right fun hwrite => h.dataOutOfBounds_iff (.inr hwrite)

/-- MemoryAccess's result is the loaded word on the input, or the one MEM/WB holds. -/
theorem Inputs.Answers.memResultAfter_eq (h : i.Answers s.mem s.ports) (hd : s.DataOk) :
    (if s.exmem.ctl.memRead then i.dataRead else s.memwb.memResult) = s.memResultAfter := by
  unfold State.memResultAfter
  split
  case isTrue hr => exact (Memory.read_eq_some.mp (h.dataRead hr (hd (.inl hr)))).2.symm
  case isFalse => rfl

end

/-! ## The cycle on the ports (R365) -/

section
variable {p : Params} {i : Inputs} {s : State}

/-- With the fetch inside the image, Decode's response decides, and behind it MemoryAccess's access. -/
theorem portCycle_of_fetchOk (hreset : i.reset = false) (h : i.Answers s.mem s.ports) (hf : s.FetchOk) :
    portCycle p i s = clockCycle (rawSlot p s.ifid) s := by
  have hfetch : ¬ i.fetchOutOfBounds = true := mt h.fetchOutOfBounds_iff.mp (not_not.mpr hf)
  rw [portCycle, hreset, if_neg Bool.false_ne_true, if_neg hfetch, h.fetchData_eq hf]
  cases hr : resolve (rawSlot p s.ifid) s.regsAfterWriteback s s.fetched with
  | error f => exact (clockCycle_of_resolve_error hf hr).symm
  | ok front =>
    dsimp only
    split <;> rename_i hload <;> rw [h.loadIsFatal_iff] at hload
    · obtain ⟨hread, hb⟩ := hload
      exact (clockCycle_of_access_error hf hr (State.access_error_iff.mpr ⟨hb, .inl ⟨hread, rfl⟩⟩)).symm
    split <;> rename_i hstore <;> rw [h.storeIsFatal_iff] at hstore
    · obtain ⟨hwrite, hb⟩ := hstore
      have hread : s.exmem.ctl.memRead = false := Bool.eq_false_iff.mpr fun hread => hload ⟨hread, hb⟩
      exact (clockCycle_of_access_error hf hr (State.access_error_iff.mpr ⟨hb, .inr ⟨hread, hwrite, rfl⟩⟩)).symm
    · have hd : s.DataOk := fun ha => by_contra fun hb => ha.elim (hload ⟨·, hb⟩) (hstore ⟨·, hb⟩)
      rw [clockCycle_of_ok hf hd, hr, h.memResultAfter_eq hd]
      rfl

/-- The core on its inputs makes the cycle of the word in Decode when the memory answers its outputs. -/
theorem portCycle_of_answers (hreset : i.reset = false) (h : i.Answers s.mem s.ports) :
    portCycle p i s = clockCycle (rawSlot p s.ifid) s := by
  by_cases hf : s.FetchOk
  · exact portCycle_of_fetchOk hreset h hf
  · rw [portCycle, hreset, if_neg Bool.false_ne_true, if_pos (h.fetchOutOfBounds_iff.mpr hf), clockCycle_of_not_fetchOk hf]

/-- The state that a cycle on the ports commits with Decode's response `front`. -/
def State.portAdvance (s : State) (i : Inputs) (front : FrontEnd) : State where
  pc := front.pc
  regs := s.regsAfterWriteback
  ifid := front.ifid
  idex := front.idex
  exmem := s.execute
  memwb := ⟨s.exmem, if s.exmem.ctl.memRead then i.dataRead else s.memwb.memResult⟩
  mem := s.memAfter

/-- When a cycle on the ports answers a next state, and which: the memory is in no condition. -/
theorem portCycle_eq_next_iff {t : State} (hreset : i.reset = false) :
    portCycle p i s = .next t ↔
      i.fetchOutOfBounds = false ∧
      (s.exmem.ctl.memRead && i.dataOutOfBounds) = false ∧ (s.exmem.ctl.memWrite && i.dataOutOfBounds) = false ∧
      ∃ front, resolve (rawSlot p s.ifid) s.regsAfterWriteback s i.fetchData = .ok front ∧ s.portAdvance i front = t := by
  rw [portCycle, hreset, if_neg Bool.false_ne_true]
  cases i.fetchOutOfBounds with
  | true => simp
  | false =>
    cases resolve (rawSlot p s.ifid) s.regsAfterWriteback s i.fetchData with
    | error f => simp
    | ok front =>
      cases s.exmem.ctl.memRead && i.dataOutOfBounds <;> cases s.exmem.ctl.memWrite && i.dataOutOfBounds <;>
        simp [State.portAdvance]

/-- Another memory behind the ports gives the same cycle but for the memory. -/
theorem portCycle_with_mem {t : State} (ht : portCycle p i s = .next t) (m : Memory) :
    ∃ u, portCycle p i { s with mem := m } = .next u ∧ t = { u with mem := t.mem } := by
  cases hreset : i.reset with
  | true =>
    obtain rfl : s.resetCore = t := Host.Outcome.next.inj ((portCycle_of_reset s hreset).symm.trans ht)
    exact ⟨_, portCycle_of_reset _ hreset, rfl⟩
  | false =>
    obtain ⟨hfetch, hload, hstore, front, hr, rfl⟩ := (portCycle_eq_next_iff hreset).mp ht
    exact ⟨_, (portCycle_eq_next_iff hreset).mpr ⟨hfetch, hload, hstore, front, hr, rfl⟩, rfl⟩

end

/-- Settles O55: with the memory's answers on the inputs the port cycle is the cycle of the word in Decode, which the step is too;
under reset it reads no input, and in neither case anything of the memory but what it hands on. -/
theorem portsCarryTheCycle : Obligations.PortsCarryTheCycle := by
  refine fun p i s hp => ⟨fun hreset h => ?_, portCycle_of_reset s, fun m t ht => portCycle_with_mem ht m⟩
  rw [stepWith_eq_clockCycle_rawSlot hp, portCycle_of_answers hreset h]

end Sys2Proof.Machine
end
